-- ==== Sys2Proof/Word.lean ====
section
/-! DEFINITION. The word types of the LZW12 decode engine and the names of its data (spec/00_scope.md R8, R12, R13, R15). -/

namespace Sys2Proof

/-- An 8-bit byte (BYTE_BITS, R8). -/
abbrev Byte := BitVec 8

/-- The internal codeword path: 16 bits (CODE_DP_BITS, R8; decision D11). A codeword of a full chunk
is at most `0xFFF`; one of a trailing pair may be any 16-bit value. -/
abbrev Codeword := BitVec 16

/-- A host register word (REG_BITS, R8). -/
abbrev Word := BitVec 32

/-- A host register index (REG_IDX_BITS, R8). -/
abbrev RegIdx := BitVec 4

/-- An input token, `in_end || in_data` (R90). -/
abbrev Token := BitVec 9

/-- A host command, `WE || IDX || WDATA` (R101). -/
abbrev HostCmd := BitVec 37

/-- A string: a finite sequence of bytes (R13); `[]` is the empty string. -/
abbrev Str := List Byte

end Sys2Proof
end

