-- ==== Sys2Proof/Config.lean ====
section
/-! DEFINITION. What is fixed for the block, what an implementation fixes, and the one free value (spec/00_scope.md R8, R9; spec/93_implementation_defined.md X4, X12, X13). -/

namespace Sys2Proof

/-- INIT_SIZE: the size of the initial symbol table (R8). -/
def Config.initSize : Nat := 256

/-- CAPACITY: the table size at which the table is reset (R8). -/
def Config.capacity : Nat := 4096

/-- The capacity `OUT_CAP` that `State.reset` is given. DESIGN CHOICE (unsafe, log entry 2): the spec
leaves it a parameter, `1 <= OUT_CAP <= 2^32 - 1` (R9, D15); this is the largest legal value. The machine
reads the field `State.outCap`, and every statement holds for every value of that field. -/
def Config.defaultOutCap : Nat := 4294967295

/-- The bound `STR_CAP` that `State.reset` is given. DESIGN CHOICE (unsafe, log entry 2): the spec leaves
it a parameter, `STR_CAP >= 3841` (R9, D16); this value is as long as the longest output `Config.defaultOutCap`
admits. The machine reads the field `State.strCap`. -/
def Config.defaultStrCap : Nat := 4294967295

/-- `OUT_CAP` is legal (R9). -/
abbrev Config.legalOutCap (n : Nat) : Prop := 1 ≤ n ∧ n ≤ 4294967295

/-- `STR_CAP` is legal (R9). -/
abbrev Config.legalStrCap (n : Nat) : Prop := 3841 ≤ n

/-- FREE VALUE: the byte of OUTBUF at an index nothing has written since hardware reset. The spec leaves
it "any value" (R37, X4; log entry 3); nothing in Lean can evaluate it. No run reads it: a host read at or
above OUT_LEN returns 0 (R66), and every byte below OUT_LEN has been written. -/
opaque Config.outbufByte : Nat → Byte

end Sys2Proof
end

