-- ==== Sys2Proof/Syntax.lean ====
section
/-! DEFINITION. The operations of spec/opcode_table.json, one constructor per mnemonic, and the three forms in which the world presents an input (spec/30_encoding.md R90, R100, R101). -/

namespace Sys2Proof

/-- The operations of the block. The operand of an unpacker operation is the DATA field of its token
(for an END token the bits are ignored, R90); of a decoder operation, the codeword `c` at the head of CQ;
of a host command, its WDATA field (ignored by a read, R101). -/
inductive Instr where
  /-- R121: BYTE token, first byte of a chunk. -/
  | uHold1 (b : Byte)
  /-- R122: BYTE token, second byte of a chunk. -/
  | uHold2 (b : Byte)
  /-- R123: BYTE token, third byte: a FULL chunk, two codewords. -/
  | uFull (b3 : Byte)
  /-- R125: END token at a chunk boundary. -/
  | uEnd0 (data : Byte)
  /-- R126: END token after one byte of a chunk (trailing single). -/
  | uEnd1 (data : Byte)
  /-- R127: END token after two bytes of a chunk (trailing pair). -/
  | uEnd2 (data : Byte)
  /-- R152: the first codeword of a run. -/
  | dFirst (c : Codeword)
  /-- R155: a first codeword of 256 or above. -/
  | dCorruptFirst (c : Codeword)
  /-- R153: the codeword is present in the table. -/
  | dHit (c : Codeword)
  /-- R154: the codeword equals nextCode (the KwKwK case). -/
  | dKwkwk (c : Codeword)
  /-- R155: the codeword is neither present nor nextCode. -/
  | dCorrupt (c : Codeword)
  /-- R156: internal; the table reset at capacity inside D_HIT or D_KWKWK. -/
  | tableReset
  /-- R192: internal; the append that ends every successful decode step. -/
  | dAppend (result : Str)
  /-- R211. -/
  | rdCtrl (v : Word)
  /-- R212, R213. -/
  | wrCtrl (v : Word)
  /-- R214. -/
  | rdStatus (v : Word)
  /-- R223. -/
  | wrStatus (v : Word)
  /-- R215. -/
  | rdOutLen (v : Word)
  /-- R223. -/
  | wrOutLen (v : Word)
  /-- R216. -/
  | rdOutAddr (v : Word)
  /-- R217. -/
  | wrOutAddr (v : Word)
  /-- R218. -/
  | rdOutData (v : Word)
  /-- R223. -/
  | wrOutData (v : Word)
  /-- R219. -/
  | rdTableSize (v : Word)
  /-- R223. -/
  | wrTableSize (v : Word)
  /-- R220. -/
  | rdCodeCount (v : Word)
  /-- R223. -/
  | wrCodeCount (v : Word)
  /-- R221. -/
  | rdLastCode (v : Word)
  /-- R223. -/
  | wrLastCode (v : Word)
  /-- R222. -/
  | rdByteCount (v : Word)
  /-- R223. -/
  | wrByteCount (v : Word)
  /-- R224: a read of a reserved index, 9 to 15. -/
  | rdRsvd (idx : RegIdx) (v : Word)
  /-- R225: a write of a reserved index, 9 to 15. -/
  | wrRsvd (idx : RegIdx) (v : Word)
  deriving DecidableEq, Repr

/-- UPH, the unpacker phase: the number of bytes of the current chunk already read (R31). Two bits in the
hardware; the value 3 never occurs (X11) and is not representable here (log entry 7). -/
inductive Phase where
  | zero
  | one
  | two
  deriving DecidableEq, Repr

/-- An input as the world presents it: a token on the input port (R90), a codeword at the head of CQ
(R100), or a command on the host port (R101). -/
inductive InWord where
  | token (t : Token)
  | code (c : Codeword)
  | host (h : HostCmd)
  deriving DecidableEq, Repr

/-- What of the state selects an operation: UPH for a token (R31), TSIZE and whether LAST is empty for a
codeword (R100). A host command needs none of it (R210). -/
structure DecodeCtx where
  phase : Phase
  tsize : BitVec 13
  lastEmpty : Bool
  deriving DecidableEq, Repr

end Sys2Proof
end

