-- ==== Sys2Proof/Machine/State.lean ====
section
/-! DEFINITION. The state of the block and of the world at its ports, as plain data; the reasons a step can stop; the state after hardware reset (spec/10_state.md R22 to R37, R55; spec/00_scope.md R10). -/

namespace Sys2Proof.Machine

/-- STATE (R22), in the order of its encoding: 0 IDLE, 1 RUN, 2 DONE, 3 ERROR. -/
inductive RunState where
  | idle
  | run
  | done
  | error
  deriving DecidableEq, Repr

/-- ERRCODE (R23, R258): 0 NONE, 1 CORRUPT, 2 STR_OVF, 3 OUT_OVF. The values 4 to 15 are reserved and never
written (X10); they are not representable here (log entry 7). -/
inductive ErrCode where
  | noError
  | corrupt
  | strOvf
  | outOvf
  deriving DecidableEq, Repr

/-- A memory as data: the present entries by address, addresses strictly rising (`Memory.wf`). -/
abbrev Memory (α : Type) := List (Nat × α)

/-- What the world does at the block's ports, one step each, and the engine's turn. The order in which the
agents step is not fixed by the spec (R10, R77, X16); the list `State.events` is that order, as data (log
entry 1). -/
inductive Event where
  /-- The engine has the turn: it takes its one enabled step, or waits (R191). -/
  | engine
  /-- The input source offers a further token, behind those it offers already (R39, R90). -/
  | offer (t : Token)
  /-- The host withdraws every token the input source still offers (R197, R292; log entry 12). -/
  | withdraw
  /-- One host register access (R101, R210). -/
  | host (h : HostCmd)
  /-- A hardware reset (R280; log entry 11). -/
  | hwReset
  deriving DecidableEq, Repr

/-- The state. The first group of fields is the block's own (R22 to R37); then the data at its ports; then
the order of the agents' steps; then the two open parameters of the block (R9). -/
structure State where
  /-- STATE (R22). -/
  state : RunState
  /-- ERRCODE (R23). -/
  errCode : ErrCode
  /-- TRUNC (R24). -/
  trunc : Bool
  /-- IRQ_EN (R25). -/
  irqEn : Bool
  /-- OUT_ADDR (R26). -/
  outAddr : Word
  /-- OUT_LEN (R27). -/
  outLen : Word
  /-- CODE_COUNT (R28). -/
  codeCount : Word
  /-- BYTE_COUNT (R29). -/
  byteCount : Word
  /-- LAST_CODE (R30). -/
  lastCode : Codeword
  /-- UPH (R31). -/
  uph : Phase
  /-- UB1 (R31). -/
  ub1 : Byte
  /-- UB2 (R31). -/
  ub2 : Byte
  /-- CQ (R32), the head first. -/
  cq : List Codeword
  /-- EOF_SEEN (R33). -/
  eofSeen : Bool
  /-- LAST (R34). -/
  last : Str
  /-- TSIZE (R35), which is also nextCode. -/
  tsize : BitVec 13
  /-- SYMTAB (R36): the strings by code. A slot that is not listed holds nothing (log entry 6). -/
  symtab : Memory Str
  /-- OUTBUF (R37): the bytes written since hardware reset, by index. -/
  outbuf : List Host.Cell
  /-- host_rdata (R39), as the host received it in the most recent read access. Between reads the port is
  undefined (R55); this field is the word the host holds, not the port (log entry 4). -/
  hostRdata : Word
  /-- The tokens the input source offers, the next one first (R10, R39). -/
  source : List Token
  /-- The order of the agents' steps still to come, the next one first. When it is empty the engine has
  every turn. -/
  events : List Event
  /-- OUT_CAP (R9): a parameter of the block; no step writes it. -/
  outCap : Nat
  /-- STR_CAP (R9): a parameter of the block; no step writes it. -/
  strCap : Nat
  deriving DecidableEq, Repr

/-- The two situations that no input can cause and that a model which reaches them must report (R268). -/
inductive Fault where
  /-- Raised by D_FIRST and D_HIT when SymRead is applied to a slot that is not present (R61, X5).
  Safe: the machine stops; no state that meets the invariants of R38 reaches it (log entry 6). -/
  | symReadAbsent
  /-- Raised by the step when a codeword is at the head of CQ with LAST = [] and TSIZE != 256 (R157, X3).
  Safe: the machine stops; no state that meets the invariants of R38 reaches it. -/
  | emptyLast
  deriving DecidableEq, Repr

/-- Why an operation has no meaning in a state. -/
inductive Refusal where
  /-- Raised by no meaning: an arm of `exec` whose operation is not modelled. Safe. There is none. -/
  | notModelled (mnemonic : String)
  /-- Raised by an engine operation in a state where the condition of its row of the opcode table does not
  hold, so that the block has no such step (R120, R150, R100). Safe: the step never asks for it (log entry 5). -/
  | notEnabled
  deriving DecidableEq, Repr

/-- The outcome of an operation or a step. -/
abbrev Result := Host.Outcome State Fault Refusal

/-- The initial symbol table: slot i holds `[i]` for i < 256, and nothing else is present (R63). -/
def initTable : Memory Str :=
  (List.range Config.initSize).map fun i => (i, [BitVec.ofNat 8 i])

/-- The state after hardware reset of a block with the given parameters, with nothing at its ports (R55). -/
def State.resetWith (outCap strCap : Nat) : State :=
  { state := .idle
    errCode := .noError
    trunc := false
    irqEn := false
    outAddr := 0#32
    outLen := 0#32
    codeCount := 0#32
    byteCount := 0#32
    lastCode := 0#16
    uph := .zero
    ub1 := 0#8
    ub2 := 0#8
    cq := []
    eofSeen := false
    last := []
    tsize := 256#13
    symtab := initTable
    outbuf := []
    hostRdata := 0#32
    source := []
    events := []
    outCap := outCap
    strCap := strCap }

/-- The machine right after hardware reset (R55), at the default parameters (log entry 2). -/
def State.reset : State := State.resetWith Config.defaultOutCap Config.defaultStrCap

end Sys2Proof.Machine
end

