-- ==== Sys2Proof/Machine/Ops.lean ====
section
/-! DEFINITION. The named operations over the memories, the registers and the run (spec/20_memory.md R61 to R66; spec/42_driver.md R193; spec/43_host_interface.md R213; spec/60_exceptions.md R254; spec/70_reset_and_hazards.md R280). -/

namespace Sys2Proof.Machine

/-- What a memory holds at an address; `none` where nothing is present. -/
def Memory.read {α : Type} : Memory α → Nat → Option α
  | [], _ => none
  | (k, v) :: m, a => if k = a then some v else Memory.read m a

/-- The memory with a value put at an address; it keeps the addresses strictly rising. -/
def Memory.write {α : Type} : Memory α → Nat → α → Memory α
  | [], a, v => [(a, v)]
  | (k, w) :: m, a, v =>
    if a < k then (a, v) :: (k, w) :: m
    else if a = k then (a, v) :: m
    else (k, w) :: Memory.write m a v

/-- Put the bytes of a string at consecutive addresses, the first byte lowest (R65, R70). -/
def Memory.writeStr : Memory Byte → Nat → Str → Memory Byte
  | m, _, [] => m
  | m, a, b :: s => Memory.writeStr (Memory.write m a b) (a + 1) s

/-- The canonical form: addresses strictly rising. An address that is not listed reads as no value, so no
listed entry equals what an unlisted address reads as. -/
def Memory.wf {α : Type} : Memory α → Bool
  | [] => true
  | (k, _) :: m => m.all (fun c => decide (k < c.1)) && Memory.wf m

/-- `SymRead(k)` (R61): the string at a present slot, `none` at an absent one (k >= TSIZE). A present slot
holds a non-empty string (R36), so a slot that holds none is not present either. -/
def State.symRead (s : State) (k : Nat) : Option Str :=
  if k < s.tsize.toNat then
    match Memory.read s.symtab k with
    | some (b :: t) => some (b :: t)
    | _ => none
  else none

/-- `SymWrite(TSIZE, str)` (R62): the string goes to slot TSIZE, and TSIZE grows by 1. -/
def State.symWrite (s : State) (str : Str) : State :=
  { s with symtab := Memory.write s.symtab s.tsize.toNat str, tsize := s.tsize + 1#13 }

/-- `SymInit()` (R63): TSIZE is 256, slot i holds `[i]` for i < 256, every other slot is absent. -/
def State.symInit (s : State) : State :=
  { s with symtab := initTable, tsize := 256#13 }

/-- The table reset at capacity (R156): when TSIZE has reached 4096, SymInit follows in the same step. -/
def State.resetIfFull (s : State) : State :=
  if s.tsize.toNat = Config.capacity then s.symInit else s

/-- `OutAppend(str)` (R65). -/
def State.outAppend (s : State) (str : Str) : State :=
  { s with outbuf := Memory.writeStr s.outbuf s.outLen.toNat str
           outLen := s.outLen + BitVec.ofNat 32 str.length }

/-- `MemRead(OUTBUF, i, 1)` (R66): the byte below OUT_LEN, 0 at or above it. A byte that nothing has
written is a free value (X4); below OUT_LEN every byte has been written. -/
def State.memRead (s : State) (i : Nat) : Byte :=
  if i < s.outLen.toNat then
    match Memory.read s.outbuf i with
    | some b => b
    | none => Config.outbufByte i
  else 0#8

/-- `raise StreamError(e)` (R254): the whole of exception entry. -/
def State.raise (s : State) (e : ErrCode) : State :=
  { s with state := .error, errCode := e }

/-- `done` (R193): the normal end of a run. -/
def State.finish (s : State) : State := { s with state := .done }

/-- The end of a successful decode step that leaves CQ empty after END (R151, R193). -/
def State.finishIfDrained (s : State) : State :=
  if s.cq = [] ∧ s.eofSeen = true then s.finish else s

/-- `c <- head(CQ); CQ <- tail(CQ); LAST_CODE <- c`, the start of every decode step (R151). -/
def State.takeCode (s : State) (c : Codeword) : State :=
  { s with cq := s.cq.tail, lastCode := c }

/-- CODE_COUNT counts one more decoded codeword, modulo 2^32 (R28). -/
def State.countCode (s : State) : State := { s with codeCount := s.codeCount + 1#32 }

/-- BYTE_COUNT counts one more byte token, modulo 2^32 (R29). -/
def State.countByte (s : State) : State := { s with byteCount := s.byteCount + 1#32 }

/-- D_APPEND's effect once its check has passed: OutAppend, then LAST takes the result (R192). -/
def State.append (s : State) (result : Str) : State :=
  { s.outAppend result with last := result }

/-- START (R213): ignored while a run is in progress; otherwise a new run, with every run-scoped element
reinitialised. IRQ_EN, OUT_ADDR, the bytes of OUTBUF and the input source are left alone. -/
def State.start (s : State) : State :=
  if s.state = .run then s
  else
    State.symInit
      { s with
        state := .run, errCode := .noError, trunc := false
        outLen := 0#32, codeCount := 0#32, byteCount := 0#32, lastCode := 0#16
        uph := .zero, ub1 := 0#8, ub2 := 0#8, cq := [], eofSeen := false
        last := [] }

/-- Hardware reset as one step (R280, R55): every element of the block at its reset value. What is not the
block's is unaffected: the tokens the source still offers, the events to come, the word the host holds, and
the block's parameters. -/
def State.hardwareReset (s : State) : State :=
  { State.resetWith s.outCap s.strCap with
    hostRdata := s.hostRdata, source := s.source, events := s.events }

end Sys2Proof.Machine
end

