-- ==== Sys2Proof/Machine/Flags.lean ====
section
/-! DEFINITION. The status flags, the output ports in_ready and irq, and the host's view of the registers (spec/10_state.md R41, R42, R44 to R54). -/

namespace Sys2Proof.Machine

/-- The two-bit encoding of STATE (R22). -/
def RunState.bits : RunState → BitVec 2
  | .idle => 0#2
  | .run => 1#2
  | .done => 2#2
  | .error => 3#2

/-- The four-bit encoding of ERRCODE (R23). -/
def ErrCode.bits : ErrCode → BitVec 4
  | .noError => 0#4
  | .corrupt => 1#4
  | .strOvf => 2#4
  | .outOvf => 3#4

/-- `in_ready = (STATE = RUN) and (CQ is empty) and (EOF_SEEN = 0)` (R41). -/
abbrev State.inReady (s : State) : Prop := s.state = .run ∧ s.cq = [] ∧ s.eofSeen = false

/-- A decode step on codeword `c` is enabled: STATE = RUN and `c` is the head of CQ (R150). -/
abbrev State.decodeReady (s : State) (c : Codeword) : Prop := s.state = .run ∧ s.cq.head? = some c

/-- The interrupt's pending condition: STATE = DONE or STATE = ERROR (R260). -/
def RunState.ended : RunState → Bool
  | .idle => false
  | .run => false
  | .done => true
  | .error => true

/-- `irq = IRQ_EN and (STATE = DONE or STATE = ERROR)` (R42): a level. -/
def State.irq (s : State) : Bool := s.irqEn && s.state.ended

/-- CTRL as read (R44): `zext_32(IRQ_EN << 1)`; START and the reserved bits read 0. -/
def State.ctrlReg (s : State) : Word := (BitVec.ofBool s.irqEn).setWidth 32 <<< 1

/-- STATUS (R45): `zext_32(ERRCODE << 4 | TRUNC << 2 | STATE)`. -/
def State.statusReg (s : State) : Word :=
  (s.errCode.bits.setWidth 32 <<< 4) ||| ((BitVec.ofBool s.trunc).setWidth 32 <<< 2)
    ||| s.state.bits.setWidth 32

/-- OUT_DATA (R48): the output byte at OUT_ADDR, zero-extended. -/
def State.outDataReg (s : State) : Word := (s.memRead s.outAddr.toNat).setWidth 32

/-- TABLE_SIZE (R49). -/
def State.tableSizeReg (s : State) : Word := s.tsize.setWidth 32

/-- LAST_CODE (R51). -/
def State.lastCodeReg (s : State) : Word := s.lastCode.setWidth 32

/-- A host read access completes: the host receives the word on host_rdata, and nothing else changes
(R74, R210). -/
def State.hostReceives (s : State) (v : Word) : State := { s with hostRdata := v }

end Sys2Proof.Machine
end

