-- ==== Sys2Proof/Machine/Dictionary.lean ====
section
/-! DEFINITION. The DictionaryDecoder operations and the append that ends a decode step (spec/41_dictionary.md R150 to R157; spec/42_driver.md R192, R193; spec/60_exceptions.md R250 to R255). -/

namespace Sys2Proof.Machine

/-- A new string is longer than STR_CAP (R251). -/
abbrev State.strTooLong (s : State) (new : Str) : Prop := s.strCap < new.length

/-- The result would make OUT_LEN exceed OUT_CAP; computed without wrap (R192, R252). -/
abbrev State.outTooLong (s : State) (result : Str) : Prop :=
  s.outCap < s.outLen.toNat + result.length

/-- The end of a successful decode step, after the checks and the table write: append, count, and end the
run when the trailing pair's codeword was the last (R151, R192, R193). -/
def State.commit (s : State) (result : Str) : State :=
  ((s.append result).countCode).finishIfDrained

/-- A decode step that inserts no entry, from its OUT_OVF check on (R151, D_FIRST). -/
def State.deliver (s : State) (result : Str) : State :=
  if s.outTooLong result then s.raise .outOvf else s.commit result

/-- A decode step that inserts `new`, from its STR_OVF check on (R151, D_HIT and D_KWKWK). The checks
precede every write, in the order STR_OVF, OUT_OVF (R253); then SymWrite at TSIZE, the table reset at
capacity, and the append. -/
def State.insertDeliver (s : State) (new result : Str) : State :=
  if s.strTooLong new then s.raise .strOvf
  else if s.outTooLong result then s.raise .outOvf
  else ((s.symWrite new).resetIfFull).commit result

/-- D_FIRST (R152). -/
def execDFirst (c : Codeword) (s : State) : Result :=
  if s.decodeReady c ∧ s.tsize.toNat = 256 ∧ s.last = [] ∧ c.toNat < 256 then
    match s.symRead c.toNat with
    | some result => .next ((s.takeCode c).deliver result)
    | none => .fault .symReadAbsent
  else .refused .notEnabled

/-- D_CORRUPT_FIRST (R155). -/
def execDCorruptFirst (c : Codeword) (s : State) : Result :=
  if s.decodeReady c ∧ s.tsize.toNat = 256 ∧ s.last = [] ∧ 256 ≤ c.toNat then
    .next ((s.takeCode c).raise .corrupt)
  else .refused .notEnabled

/-- D_HIT (R153): the entry is read before the table is written; the new string is LAST followed by the
entry's first byte. -/
def execDHit (c : Codeword) (s : State) : Result :=
  if s.decodeReady c ∧ s.last ≠ [] ∧ c.toNat < s.tsize.toNat then
    match s.symRead c.toNat with
    | some entry => .next ((s.takeCode c).insertDeliver (s.last ++ entry.take 1) entry)
    | none => .fault .symReadAbsent
  else .refused .notEnabled

/-- D_KWKWK (R154): the new string, LAST followed by LAST's first byte, is also the result. -/
def execDKwkwk (c : Codeword) (s : State) : Result :=
  if s.decodeReady c ∧ s.last ≠ [] ∧ c.toNat = s.tsize.toNat then
    .next ((s.takeCode c).insertDeliver (s.last ++ s.last.take 1) (s.last ++ s.last.take 1))
  else .refused .notEnabled

/-- D_CORRUPT (R155). -/
def execDCorrupt (c : Codeword) (s : State) : Result :=
  if s.decodeReady c ∧ s.last ≠ [] ∧ s.tsize.toNat < c.toNat then
    .next ((s.takeCode c).raise .corrupt)
  else .refused .notEnabled

/-- TABLE_RESET (R156): SymInit, inside a decode step whose SymWrite has made TSIZE = 4096. The input cannot
select it; D_HIT and D_KWKWK perform it through `State.resetIfFull` (log entry 9). -/
def execTableReset (s : State) : Result :=
  if s.state = .run ∧ s.tsize.toNat = Config.capacity then .next s.symInit
  else .refused .notEnabled

end Sys2Proof.Machine
end

