-- ==== Sys2Proof/Machine/Driver.lean ====
section
/-! DEFINITION. The DecodeDriver's own operation of the opcode table, D_APPEND (spec/42_driver.md R192). -/

namespace Sys2Proof.Machine

/-- D_APPEND (R192): the OUT_OVF check, OutAppend, and LAST takes the result. The input cannot select it; every
successful decode step ends in it (log entry 9). -/
def execDAppend (result : Str) (s : State) : Result :=
  if s.state = .run then
    if s.outTooLong result then .next (s.raise .outOvf) else .next (s.append result)
  else .refused .notEnabled

end Sys2Proof.Machine
end

