-- ==== Sys2Proof/Machine/HostPort.lean ====
section
/-! DEFINITION. The host register commands (spec/43_host_interface.md R210 to R225): enabled in every STATE, never delayed, never an error. -/

namespace Sys2Proof.Machine

/-- RD CTRL (R211). -/
def execRdCtrl (_v : Word) (s : State) : Result := .next (s.hostReceives s.ctrlReg)

/-- WR CTRL, v (R212): IRQ_EN takes bit 1; bit 0 is START (R213); the other bits are ignored. -/
def execWrCtrl (v : Word) (s : State) : Result :=
  if v.getLsbD 0 then .next (State.start { s with irqEn := v.getLsbD 1 })
  else .next { s with irqEn := v.getLsbD 1 }

/-- RD STATUS (R214). -/
def execRdStatus (_v : Word) (s : State) : Result := .next (s.hostReceives s.statusReg)

/-- WR STATUS: a read-only register, the write is ignored (R223). -/
def execWrStatus (_v : Word) (s : State) : Result := .next s

/-- RD OUT_LEN (R215). -/
def execRdOutLen (_v : Word) (s : State) : Result := .next (s.hostReceives s.outLen)

/-- WR OUT_LEN: a read-only register, the write is ignored (R223). -/
def execWrOutLen (_v : Word) (s : State) : Result := .next s

/-- RD OUT_ADDR (R216). -/
def execRdOutAddr (_v : Word) (s : State) : Result := .next (s.hostReceives s.outAddr)

/-- WR OUT_ADDR, v (R217). -/
def execWrOutAddr (v : Word) (s : State) : Result := .next { s with outAddr := v }

/-- RD OUT_DATA (R218). -/
def execRdOutData (_v : Word) (s : State) : Result := .next (s.hostReceives s.outDataReg)

/-- WR OUT_DATA: a read-only register, the write is ignored (R223). -/
def execWrOutData (_v : Word) (s : State) : Result := .next s

/-- RD TABLE_SIZE (R219). -/
def execRdTableSize (_v : Word) (s : State) : Result := .next (s.hostReceives s.tableSizeReg)

/-- WR TABLE_SIZE: a read-only register, the write is ignored (R223). -/
def execWrTableSize (_v : Word) (s : State) : Result := .next s

/-- RD CODE_COUNT (R220). -/
def execRdCodeCount (_v : Word) (s : State) : Result := .next (s.hostReceives s.codeCount)

/-- WR CODE_COUNT: a read-only register, the write is ignored (R223). -/
def execWrCodeCount (_v : Word) (s : State) : Result := .next s

/-- RD LAST_CODE (R221). -/
def execRdLastCode (_v : Word) (s : State) : Result := .next (s.hostReceives s.lastCodeReg)

/-- WR LAST_CODE: a read-only register, the write is ignored (R223). -/
def execWrLastCode (_v : Word) (s : State) : Result := .next s

/-- RD BYTE_COUNT (R222). -/
def execRdByteCount (_v : Word) (s : State) : Result := .next (s.hostReceives s.byteCount)

/-- WR BYTE_COUNT: a read-only register, the write is ignored (R223). -/
def execWrByteCount (_v : Word) (s : State) : Result := .next s

/-- RD of a reserved index: 0 (R224). -/
def execRdRsvd (_idx : RegIdx) (_v : Word) (s : State) : Result := .next (s.hostReceives 0#32)

/-- WR of a reserved index: ignored (R225). -/
def execWrRsvd (_idx : RegIdx) (_v : Word) (s : State) : Result := .next s

end Sys2Proof.Machine
end

