-- ==== Sys2Proof/Machine/Operands.lean ====
section
/-! DEFINITION. The operand forms: the codewords a chunk's bytes assemble to, and the inverse packing (spec/30_encoding.md R93, R94, R97, R99). -/

namespace Sys2Proof.Machine

/-- `code_A = zext_16((b1 << 4) | (b2 >> 4))` of a FULL chunk (R97). The shifts are evaluated in 16 bits, so
none is lost. -/
def codeA (b1 b2 : Byte) : Codeword :=
  (b1.setWidth 16 <<< 4) ||| (b2.setWidth 16 >>> 4)

/-- `code_B = zext_16(((b2 & 0x0F) << 8) | b3)` of a FULL chunk (R97). -/
def codeB (b2 b3 : Byte) : Codeword :=
  ((b2 &&& 0x0F#8).setWidth 16 <<< 8) ||| b3.setWidth 16

/-- `code_T = (b1 << 8) | b2` of a TRAILING_PAIR (R97): 16 bits, not masked (decision D11, conflict C3). -/
def codeT (b1 b2 : Byte) : Codeword :=
  (b1.setWidth 16 <<< 8) ||| b2.setWidth 16

/-- Inverse packing of two codewords into a FULL chunk (R99): `b1 = x >> 4`. -/
def packB1 (x : Codeword) : Byte := (x >>> 4).setWidth 8

/-- Inverse packing (R99): `b2 = ((x & 0xF) << 4) | (y >> 8)`. -/
def packB2 (x y : Codeword) : Byte := (((x &&& 0xF#16) <<< 4) ||| (y >>> 8)).setWidth 8

/-- Inverse packing (R99): `b3 = y & 0xFF`. -/
def packB3 (y : Codeword) : Byte := (y &&& 0xFF#16).setWidth 8

end Sys2Proof.Machine
end

