-- ==== Sys2Proof/Machine/Unpacker.lean ====
section
/-! DEFINITION. The CodeUnpacker operations (spec/40_unpacker.md R120 to R130). Each is given the DATA field of the token that the step has taken from the input source. -/

namespace Sys2Proof.Machine

/-- U_HOLD1 (R121). -/
def execUHold1 (b : Byte) (s : State) : Result :=
  if s.inReady ∧ s.uph = .zero then
    .next { s.countByte with ub1 := b, uph := .one }
  else .refused .notEnabled

/-- U_HOLD2 (R122). -/
def execUHold2 (b : Byte) (s : State) : Result :=
  if s.inReady ∧ s.uph = .one then
    .next { s.countByte with ub2 := b, uph := .two }
  else .refused .notEnabled

/-- U_FULL (R123): both codewords of the chunk, code_A at the head. -/
def execUFull (b3 : Byte) (s : State) : Result :=
  if s.inReady ∧ s.uph = .two then
    .next { s.countByte with cq := [codeA s.ub1 s.ub2, codeB s.ub2 b3], uph := .zero }
  else .refused .notEnabled

/-- U_END0 (R125): the run ends; TRUNC is not written. -/
def execUEnd0 (_data : Byte) (s : State) : Result :=
  if s.inReady ∧ s.uph = .zero then .next s.finish
  else .refused .notEnabled

/-- U_END1 (R126): the partial byte is discarded, TRUNC reports it, the run ends. -/
def execUEnd1 (_data : Byte) (s : State) : Result :=
  if s.inReady ∧ s.uph = .one then
    .next (State.finish { s with trunc := true, uph := .zero })
  else .refused .notEnabled

/-- U_END2 (R127): the trailing pair's one codeword, unmasked; the run ends once it is decoded. -/
def execUEnd2 (_data : Byte) (s : State) : Result :=
  if s.inReady ∧ s.uph = .two then
    .next { s with cq := [codeT s.ub1 s.ub2], uph := .zero, eofSeen := true }
  else .refused .notEnabled

end Sys2Proof.Machine
end

