-- ==== Sys2Proof/Machine/Dispatch.lean ====
section
/-! DEFINITION. The dispatch: one arm per operation. -/

namespace Sys2Proof.Machine

def exec (i : Instr) (s : State) : Host.Outcome State Fault Refusal :=
  match i with
  | .uHold1 b => Sys2Proof.Machine.execUHold1 b s
  | .uHold2 b => Sys2Proof.Machine.execUHold2 b s
  | .uFull b3 => Sys2Proof.Machine.execUFull b3 s
  | .uEnd0 data => Sys2Proof.Machine.execUEnd0 data s
  | .uEnd1 data => Sys2Proof.Machine.execUEnd1 data s
  | .uEnd2 data => Sys2Proof.Machine.execUEnd2 data s
  | .dFirst c => Sys2Proof.Machine.execDFirst c s
  | .dCorruptFirst c => Sys2Proof.Machine.execDCorruptFirst c s
  | .dHit c => Sys2Proof.Machine.execDHit c s
  | .dKwkwk c => Sys2Proof.Machine.execDKwkwk c s
  | .dCorrupt c => Sys2Proof.Machine.execDCorrupt c s
  | .tableReset => Sys2Proof.Machine.execTableReset s
  | .dAppend result => Sys2Proof.Machine.execDAppend result s
  | .rdCtrl v => Sys2Proof.Machine.execRdCtrl v s
  | .wrCtrl v => Sys2Proof.Machine.execWrCtrl v s
  | .rdStatus v => Sys2Proof.Machine.execRdStatus v s
  | .wrStatus v => Sys2Proof.Machine.execWrStatus v s
  | .rdOutLen v => Sys2Proof.Machine.execRdOutLen v s
  | .wrOutLen v => Sys2Proof.Machine.execWrOutLen v s
  | .rdOutAddr v => Sys2Proof.Machine.execRdOutAddr v s
  | .wrOutAddr v => Sys2Proof.Machine.execWrOutAddr v s
  | .rdOutData v => Sys2Proof.Machine.execRdOutData v s
  | .wrOutData v => Sys2Proof.Machine.execWrOutData v s
  | .rdTableSize v => Sys2Proof.Machine.execRdTableSize v s
  | .wrTableSize v => Sys2Proof.Machine.execWrTableSize v s
  | .rdCodeCount v => Sys2Proof.Machine.execRdCodeCount v s
  | .wrCodeCount v => Sys2Proof.Machine.execWrCodeCount v s
  | .rdLastCode v => Sys2Proof.Machine.execRdLastCode v s
  | .wrLastCode v => Sys2Proof.Machine.execWrLastCode v s
  | .rdByteCount v => Sys2Proof.Machine.execRdByteCount v s
  | .wrByteCount v => Sys2Proof.Machine.execWrByteCount v s
  | .rdRsvd idx v => Sys2Proof.Machine.execRdRsvd idx v s
  | .wrRsvd idx v => Sys2Proof.Machine.execWrRsvd idx v s

end Sys2Proof.Machine
end

