-- ==== Sys2Proof/WellFormed.lean ====
section
/-! DEFINITION. Which operands an operation of the table can have (spec/30_encoding.md R100, R102; spec/41_dictionary.md R155, R161; spec/10_state.md R53). -/

namespace Sys2Proof

/-- The operands that the operation's row of the opcode table admits, whatever the state:
a first codeword is below 256 (R152) or not (R155, CORRUPT_FIRST); since `256 <= TSIZE <= 4095` between
steps (R38), a HIT (`c < TSIZE`) is below 4095, a KWKWK (`c = TSIZE`) is 256 to 4095 and a CORRUPT
(`c > TSIZE`) is above 256; an appended result is never empty (R192); a reserved index is 9 to 15 (R53). -/
def wellFormed : Instr → Bool
  | .dFirst c => c.toNat < 256
  | .dCorruptFirst c => 256 ≤ c.toNat
  | .dHit c => c.toNat < 4095
  | .dKwkwk c => 256 ≤ c.toNat && c.toNat ≤ 4095
  | .dCorrupt c => 256 < c.toNat
  | .dAppend result => !result.isEmpty
  | .rdRsvd idx _ => 9 ≤ idx.toNat
  | .wrRsvd idx _ => 9 ≤ idx.toNat
  | .uHold1 _ | .uHold2 _ | .uFull _ | .uEnd0 _ | .uEnd1 _ | .uEnd2 _ => true
  | .tableReset => true
  | .rdCtrl _ | .wrCtrl _ | .rdStatus _ | .wrStatus _ | .rdOutLen _ | .wrOutLen _ => true
  | .rdOutAddr _ | .wrOutAddr _ | .rdOutData _ | .wrOutData _ | .rdTableSize _ | .wrTableSize _ => true
  | .rdCodeCount _ | .wrCodeCount _ | .rdLastCode _ | .wrLastCode _ => true
  | .rdByteCount _ | .wrByteCount _ => true

end Sys2Proof
end

