-- ==== Sys2Proof/Decode.lean ====
section
/-! DEFINITION. The decoder: from a token, a codeword or a host command, in the context the state gives, to an operation; and the encoder (spec/30_encoding.md R90, R100, R101; spec/43_host_interface.md). -/

namespace Sys2Proof

/-- Why an input selects no operation. Tokens and host commands always select one (R130, R210). -/
inductive Reject where
  /-- A codeword with LAST = [] and TSIZE != 256: the source's precondition violation (R157). -/
  | emptyLast
  deriving DecidableEq, Repr

/-- Why a numeral is no input at all. -/
inductive RawReject where
  /-- A bit above the input form's width is set. -/
  | valueTooWide
  /-- The width is that of no input form. -/
  | noSuchForm
  deriving DecidableEq, Repr

/-- The END bit of a token (R90). -/
def tokenEnd (t : Token) : Bool := t.getLsbD 8

/-- The DATA field of a token (R90). -/
def tokenData (t : Token) : Byte := t.extractLsb' 0 8

/-- The token of a data byte, `0 || b` (R90). -/
def byteToken (b : Byte) : Token := 0#1 ++ b

/-- An END token, `1 || data`; the data bits are ignored (R90). -/
def endToken (data : Byte) : Token := 1#1 ++ data

/-- Which unpacker operation a token selects: fixed by its kind and by UPH (40_unpacker.md, head; R121 to
R127). Every token in every phase has one (R130). -/
def decodeToken (p : Phase) (t : Token) : Instr :=
  match tokenEnd t, p with
  | false, .zero => .uHold1 (tokenData t)
  | false, .one => .uHold2 (tokenData t)
  | false, .two => .uFull (tokenData t)
  | true, .zero => .uEnd0 (tokenData t)
  | true, .one => .uEnd1 (tokenData t)
  | true, .two => .uEnd2 (tokenData t)

/-- The codeword classes of R100. LAST = [] with TSIZE != 256 is rejected (R157). -/
def decodeCode (tsize : BitVec 13) (lastEmpty : Bool) (c : Codeword) : Except Reject Instr :=
  if lastEmpty then
    if tsize.toNat = 256 then
      if c.toNat < 256 then .ok (.dFirst c) else .ok (.dCorruptFirst c)
    else .error .emptyLast
  else if c.toNat < tsize.toNat then .ok (.dHit c)
  else if c.toNat = tsize.toNat then .ok (.dKwkwk c)
  else .ok (.dCorrupt c)

/-- WE of a host command (R101). -/
def cmdWrite (h : HostCmd) : Bool := h.getLsbD 36

/-- IDX of a host command (R101). -/
def cmdIdx (h : HostCmd) : RegIdx := h.extractLsb' 32 4

/-- WDATA of a host command (R101). -/
def cmdData (h : HostCmd) : Word := h.extractLsb' 0 32

/-- A host command from its fields, `WE || IDX || WDATA` (R101). -/
def mkCmd (we : Bool) (idx : RegIdx) (v : Word) : HostCmd := BitVec.ofBool we ++ idx ++ v

/-- The host commands, one per (WE, IDX) pair (R101, R43). -/
def decodeHost (h : HostCmd) : Instr :=
  match cmdWrite h, (cmdIdx h).toNat with
  | false, 0 => .rdCtrl (cmdData h)
  | true, 0 => .wrCtrl (cmdData h)
  | false, 1 => .rdStatus (cmdData h)
  | true, 1 => .wrStatus (cmdData h)
  | false, 2 => .rdOutLen (cmdData h)
  | true, 2 => .wrOutLen (cmdData h)
  | false, 3 => .rdOutAddr (cmdData h)
  | true, 3 => .wrOutAddr (cmdData h)
  | false, 4 => .rdOutData (cmdData h)
  | true, 4 => .wrOutData (cmdData h)
  | false, 5 => .rdTableSize (cmdData h)
  | true, 5 => .wrTableSize (cmdData h)
  | false, 6 => .rdCodeCount (cmdData h)
  | true, 6 => .wrCodeCount (cmdData h)
  | false, 7 => .rdLastCode (cmdData h)
  | true, 7 => .wrLastCode (cmdData h)
  | false, 8 => .rdByteCount (cmdData h)
  | true, 8 => .wrByteCount (cmdData h)
  | false, _ => .rdRsvd (cmdIdx h) (cmdData h)
  | true, _ => .wrRsvd (cmdIdx h) (cmdData h)

/-- The decoder: the operation an input selects in a context. -/
def decode (ctx : DecodeCtx) : InWord → Except Reject Instr
  | .token t => .ok (decodeToken ctx.phase t)
  | .code c => decodeCode ctx.tsize ctx.lastEmpty c
  | .host h => .ok (decodeHost h)

/-- The encoder: the input form and bits of an operation, from the spec's encodings (R90, R100, R101).
TABLE_RESET and D_APPEND have no encoding: the input cannot select them (R156, R192). -/
def encode : Instr → Option InWord
  | .uHold1 b => some (.token (byteToken b))
  | .uHold2 b => some (.token (byteToken b))
  | .uFull b3 => some (.token (byteToken b3))
  | .uEnd0 data => some (.token (endToken data))
  | .uEnd1 data => some (.token (endToken data))
  | .uEnd2 data => some (.token (endToken data))
  | .dFirst c => some (.code c)
  | .dCorruptFirst c => some (.code c)
  | .dHit c => some (.code c)
  | .dKwkwk c => some (.code c)
  | .dCorrupt c => some (.code c)
  | .tableReset => none
  | .dAppend _ => none
  | .rdCtrl v => some (.host (mkCmd false 0 v))
  | .wrCtrl v => some (.host (mkCmd true 0 v))
  | .rdStatus v => some (.host (mkCmd false 1 v))
  | .wrStatus v => some (.host (mkCmd true 1 v))
  | .rdOutLen v => some (.host (mkCmd false 2 v))
  | .wrOutLen v => some (.host (mkCmd true 2 v))
  | .rdOutAddr v => some (.host (mkCmd false 3 v))
  | .wrOutAddr v => some (.host (mkCmd true 3 v))
  | .rdOutData v => some (.host (mkCmd false 4 v))
  | .wrOutData v => some (.host (mkCmd true 4 v))
  | .rdTableSize v => some (.host (mkCmd false 5 v))
  | .wrTableSize v => some (.host (mkCmd true 5 v))
  | .rdCodeCount v => some (.host (mkCmd false 6 v))
  | .wrCodeCount v => some (.host (mkCmd true 6 v))
  | .rdLastCode v => some (.host (mkCmd false 7 v))
  | .wrLastCode v => some (.host (mkCmd true 7 v))
  | .rdByteCount v => some (.host (mkCmd false 8 v))
  | .wrByteCount v => some (.host (mkCmd true 8 v))
  | .rdRsvd idx v => some (.host (mkCmd false idx v))
  | .wrRsvd idx v => some (.host (mkCmd true idx v))

/-- The context that selects an operation: the "condition" column of the opcode table, as far as it is
about UPH (R121 to R127) or about TSIZE, LAST and `c` (R100). -/
def selects (ctx : DecodeCtx) : Instr → Bool
  | .uHold1 _ | .uEnd0 _ => ctx.phase = .zero
  | .uHold2 _ | .uEnd1 _ => ctx.phase = .one
  | .uFull _ | .uEnd2 _ => ctx.phase = .two
  | .dFirst c => ctx.lastEmpty && ctx.tsize.toNat = 256 && c.toNat < 256
  | .dCorruptFirst c => ctx.lastEmpty && ctx.tsize.toNat = 256 && 256 ≤ c.toNat
  | .dHit c => !ctx.lastEmpty && c.toNat < ctx.tsize.toNat
  | .dKwkwk c => !ctx.lastEmpty && c.toNat = ctx.tsize.toNat
  | .dCorrupt c => !ctx.lastEmpty && ctx.tsize.toNat < c.toNat
  | .tableReset | .dAppend _ => false
  | .rdCtrl _ | .wrCtrl _ | .rdStatus _ | .wrStatus _ | .rdOutLen _ | .wrOutLen _ => true
  | .rdOutAddr _ | .wrOutAddr _ | .rdOutData _ | .wrOutData _ | .rdTableSize _ | .wrTableSize _ => true
  | .rdCodeCount _ | .wrCodeCount _ | .rdLastCode _ | .wrLastCode _ => true
  | .rdByteCount _ | .wrByteCount _ => true
  | .rdRsvd _ _ | .wrRsvd _ _ => true

/-- The context START leaves: UPH = 0, TSIZE = 256, LAST = [] (R213). -/
def startCtx : DecodeCtx := { phase := .zero, tsize := 256#13, lastEmpty := true }

/-- The input form and bits of a numeral, by the width of the opcode table's format: TOKEN9, CODEWORD16
or HOSTCMD37. Where two whole bytes leave it open whether a token or a codeword is meant, a value of nine
bits is read as a token, any other as a codeword (DESIGN CHOICE, log entry 8). -/
def rawInWord (nbits w : Nat) : Except RawReject InWord :=
  if nbits = 0 then .error .noSuchForm
  else if nbits ≤ 15 then
    if w < 512 then .ok (.token (BitVec.ofNat 9 w)) else .error .valueTooWide
  else if nbits = 16 then
    if w < 512 then .ok (.token (BitVec.ofNat 9 w))
    else if w < 65536 then .ok (.code (BitVec.ofNat 16 w))
    else .error .valueTooWide
  else if nbits = 37 ∨ nbits = 40 then
    if w < 137438953472 then .ok (.host (BitVec.ofNat 37 w)) else .error .valueTooWide
  else .error .noSuchForm

/-- The operation the decoder reads from a table word, in the context START leaves. -/
def decodeTableWord (nbits w : Nat) : Option Instr :=
  match rawInWord nbits w with
  | .ok iw =>
    match decode startCtx iw with
    | .ok i => some i
    | .error _ => none
  | .error _ => none

end Sys2Proof
end

