-- ==== Sys2Proof/Machine/Fetch.lean ====
section
/-! DEFINITION. Which agent steps next and what it does: the world's events, the engine's step selection (spec/00_scope.md R10; spec/42_driver.md R191; spec/20_memory.md R77). -/

namespace Sys2Proof.Machine

/-- What the next step is: an operation to execute in a state (the input it was read from already taken), a
step of the world or a wait, or a model fault. -/
inductive Fetched where
  | run (i : Instr) (s : State)
  | still (s : State)
  | stop (f : Fault)
  deriving DecidableEq, Repr

/-- The context the state gives the decoder. -/
def State.ctx (s : State) : DecodeCtx :=
  { phase := s.uph, tsize := s.tsize, lastEmpty := s.last.isEmpty }

/-- The fault a rejected input is reported as. Only a codeword can be rejected (R157). -/
def rejectFault : Reject → Fault
  | .emptyLast => .emptyLast

/-- The engine's turn (R191): a decode step when CQ holds a codeword; else an unpack step when in_ready = 1
and the source offers a token, which the step consumes (R120); else the engine waits (log entry 10). -/
def fetchEngine (s : State) : Fetched :=
  if s.state = .run then
    match s.cq with
    | c :: _ =>
      match decode s.ctx (.code c) with
      | .ok i => .run i s
      | .error r => .stop (rejectFault r)
    | [] =>
      if s.eofSeen then .still s
      else
        match s.source with
        | [] => .still s
        | t :: ts => .run (decodeToken s.uph t) { s with source := ts }
  else .still s

/-- The next step: the first event to come, or, when there is none, the engine's turn. -/
def fetch (s : State) : Fetched :=
  match s.events with
  | [] => fetchEngine s
  | .engine :: es => fetchEngine { s with events := es }
  | .offer t :: es => .still { s with events := es, source := s.source ++ [t] }
  | .withdraw :: es => .still { s with events := es, source := [] }
  | .host h :: es => .run (decodeHost h) { s with events := es }
  | .hwReset :: es => .still (State.hardwareReset { s with events := es })

/-- A token placed where the engine's next turn takes it: a run in progress, at a chunk boundary. -/
def placeToken (s : State) (t : Token) : State :=
  { s with state := .run, uph := .zero, cq := [], eofSeen := false
           source := t :: s.source, events := .engine :: s.events }

/-- A codeword placed where the engine's next turn takes it: the first codeword of a run. -/
def placeCode (s : State) (c : Codeword) : State :=
  State.symInit
    { s with state := .run, cq := [c], last := [], events := .engine :: s.events }

/-- A host command placed as the next event. -/
def placeCmd (s : State) (h : HostCmd) : State :=
  { s with events := .host h :: s.events }

end Sys2Proof.Machine
end

