-- ==== Sys2Proof/Machine/Step.lean ====
section
/-! DEFINITION. One step of the machine: one atomic step of one agent (spec/00_scope.md R10, R11). -/

namespace Sys2Proof.Machine

/-- One step. -/
def step (s : State) : Host.Outcome State Fault Refusal :=
  match fetch s with
  | .run i s' => exec i s'
  | .still s' => .next s'
  | .stop f => .fault f

/-- `s` with a table word placed where the next step fetches its operation (log entry 8). -/
def State.withFetchWord (s : State) (nbits w : Nat) : State :=
  match rawInWord nbits w with
  | .ok (.token t) => placeToken s t
  | .ok (.code c) => placeCode s c
  | .ok (.host h) => placeCmd s h
  | .error _ => s

end Sys2Proof.Machine
end

