-- ==== Sys2Proof/Safety.lean ====
section
/-! DEFINITION. What claims are stated in: the invariants between steps (spec/10_state.md R38), what an operation leaves alone, the events that restart the block, and the source's algorithm written over plain lists (spec/41_dictionary.md R151; spec/40_unpacker.md R131) against which a whole run is compared. -/

namespace Sys2Proof.Machine

/-- The block's parameters are legal (R9). -/
def State.ParamsOk (s : State) : Prop :=
  Config.legalOutCap s.outCap ∧ Config.legalStrCap s.strCap

/-- R38 items 1 to 3, and the form of SYMTAB as data: the slots listed are exactly the present ones. -/
def State.TableOk (s : State) : Prop :=
  Memory.wf s.symtab = true ∧
  256 ≤ s.tsize.toNat ∧ s.tsize.toNat ≤ 4095 ∧
  (∀ i, i < 256 → Memory.read s.symtab i = some [BitVec.ofNat 8 i]) ∧
  (∀ k, k < s.tsize.toNat →
    ∃ str, Memory.read s.symtab k = some str ∧ 1 ≤ str.length ∧ str.length ≤ s.strCap) ∧
  (∀ k, s.tsize.toNat ≤ k → Memory.read s.symtab k = none)

/-- R38 item 4, with the length bound of R34. CODE_COUNT never exceeds OUT_LEN within a run (each decoded
codeword appends a byte or more), so it never wraps, and LAST is empty exactly when it is 0 (DEDUCED, log
entry 13). -/
def State.LastOk (s : State) : Prop :=
  (s.last = [] → s.tsize = 256#13) ∧
  (s.last = [] ↔ s.codeCount = 0#32) ∧
  s.last.length ≤ s.strCap ∧
  s.codeCount.toNat ≤ s.outLen.toNat

/-- R38 items 5 and 6, with the depth of the code queue (CQ_DEPTH, R8, R32). -/
def State.QueueOk (s : State) : Prop :=
  s.cq.length ≤ 2 ∧
  (s.cq ≠ [] → s.uph = .zero) ∧
  (s.eofSeen = true → s.cq ≠ [] ∨ s.state ≠ .run)

/-- R38 item 7, and the form of OUTBUF as data: below OUT_LEN every byte is present, and no index of
OUT_CAP or above is (R37). -/
def State.OutputOk (s : State) : Prop :=
  Memory.wf (α := Byte) s.outbuf = true ∧
  s.outLen.toNat ≤ s.outCap ∧
  (∀ i, i < s.outLen.toNat → ∃ b, Memory.read (α := Byte) s.outbuf i = some b) ∧
  (∀ i, s.outCap ≤ i → Memory.read (α := Byte) s.outbuf i = none)

/-- R38 item 8; TRUNC is set only together with DONE (R24, R126). -/
def State.FlagsOk (s : State) : Prop :=
  (s.errCode ≠ .noError ↔ s.state = .error) ∧ (s.trunc = true → s.state = .done)

/-- The invariants that hold between any two steps of any agent (R38). -/
def State.Inv (s : State) : Prop :=
  s.ParamsOk ∧ s.TableOk ∧ s.LastOk ∧ s.QueueOk ∧ s.OutputOk ∧ s.FlagsOk

/-- The next step is a hardware reset (R280). -/
def State.NextIsReset (s : State) : Prop := ∃ es, s.events = .hwReset :: es

/-- The next step is a host write of `v` to CTRL (R212). -/
def State.NextWritesCtrl (s : State) (v : Word) : Prop :=
  ∃ h es, s.events = .host h :: es ∧ cmdWrite h = true ∧ cmdIdx h = 0#4 ∧ cmdData h = v

/-- The next step is a host write of `v` to OUT_ADDR (R217). -/
def State.NextWritesOutAddr (s : State) (v : Word) : Prop :=
  ∃ h es, s.events = .host h :: es ∧ cmdWrite h = true ∧ cmdIdx h = 3#4 ∧ cmdData h = v

/-- The next step starts a new run: a write of CTRL with bit 0 set while no run is in progress (R190,
R213). -/
def State.NextStartsRun (s : State) : Prop :=
  s.state ≠ .run ∧ ∃ v, s.NextWritesCtrl v ∧ v.getLsbD 0 = true

/-- The next step is the engine's turn; `es` are the events after it. -/
def State.EngineTurn (s : State) (es : List Event) : Prop :=
  (s.events = [] ∧ es = []) ∨ s.events = .engine :: es

/-- What no decode step and no error of one changes: the warning, the host's own registers, the unpacker,
the word the host holds, the world, the parameters (R162, R254, R255). -/
def SameBesideDecode (s t : State) : Prop :=
  t.trunc = s.trunc ∧ t.irqEn = s.irqEn ∧ t.outAddr = s.outAddr ∧ t.byteCount = s.byteCount ∧
  t.uph = s.uph ∧ t.ub1 = s.ub1 ∧ t.ub2 = s.ub2 ∧ t.eofSeen = s.eofSeen ∧
  t.hostRdata = s.hostRdata ∧ t.source = s.source ∧ t.events = s.events ∧
  t.outCap = s.outCap ∧ t.strCap = s.strCap

/-- OUTBUF after an append of `str` at OUT_LEN: the appended bytes at their indices, every other byte as it
was (R65). -/
def AppendedAt (before after : Memory Byte) (at_ : Nat) (str : Str) : Prop :=
  ∀ a, Memory.read after a =
    if at_ ≤ a ∧ a < at_ + str.length then str[a - at_]? else Memory.read before a

/-- SYMTAB and TSIZE after an insertion at TSIZE: the new string at the old TSIZE and every other slot as it
was, or, when that filled the table, the initial table (R62, R63, R156). -/
def InsertedAt (s t : State) (new : Str) : Prop :=
  (s.tsize ≠ 4095#13 → t.tsize = s.tsize + 1#13 ∧
    ∀ k, Memory.read t.symtab k =
      if k = s.tsize.toNat then some new else Memory.read s.symtab k) ∧
  (s.tsize = 4095#13 → t.tsize = 256#13 ∧
    ∀ k, Memory.read t.symtab k = if k < 256 then some [BitVec.ofNat 8 k] else none)

/-- The bytes of the output accumulator: OUTBUF below OUT_LEN (R37, R67). -/
def State.OutputIs (s : State) (out : Str) : Prop :=
  s.outLen.toNat = out.length ∧ ∀ i, i < out.length → some (s.memRead i) = out[i]?

/-- The state before a step and the state after it, as far as a run's output is concerned: OUT_LEN has not
shrunk, and the bytes below it are the same (R27, R78). -/
def OutputGrows (s t : State) : Prop :=
  s.outLen.toNat ≤ t.outLen.toNat ∧ ∀ i, i < s.outLen.toNat → t.memRead i = s.memRead i

/-- Two states that a run cannot tell apart (R198): everything the engine reads or an observation shows is
equal. Left out: the word the host holds, IRQ_EN and OUT_ADDR, and the bytes of OUTBUF at OUT_LEN and above. -/
def SameRun (s t : State) : Prop :=
  t.state = s.state ∧ t.errCode = s.errCode ∧ t.trunc = s.trunc ∧
  t.outLen = s.outLen ∧ t.codeCount = s.codeCount ∧ t.byteCount = s.byteCount ∧
  t.lastCode = s.lastCode ∧ t.uph = s.uph ∧ t.ub1 = s.ub1 ∧ t.ub2 = s.ub2 ∧ t.cq = s.cq ∧
  t.eofSeen = s.eofSeen ∧ t.last = s.last ∧ t.tsize = s.tsize ∧ t.symtab = s.symtab ∧
  t.source = s.source ∧ t.events = s.events ∧ t.outCap = s.outCap ∧ t.strCap = s.strCap ∧
  ∀ i, i < s.outLen.toNat → t.memRead i = s.memRead i

/-- Two states that differ only in what the host cannot read: UPH, UB1, UB2, CQ, EOF_SEEN, LAST and
SYMTAB (R31 to R34, R36), and the bytes of OUTBUF at OUT_LEN and above (R37). -/
def SameToHost (s t : State) : Prop :=
  t.state = s.state ∧ t.errCode = s.errCode ∧ t.trunc = s.trunc ∧ t.irqEn = s.irqEn ∧
  t.outAddr = s.outAddr ∧ t.outLen = s.outLen ∧ t.codeCount = s.codeCount ∧
  t.byteCount = s.byteCount ∧ t.lastCode = s.lastCode ∧ t.tsize = s.tsize ∧
  ∀ i, i < s.outLen.toNat → t.memRead i = s.memRead i

/-- The string lengths of a run's first table (R161): entry k is at most k - 254 bytes long, and LAST no
longer than an entry could be. -/
def State.FirstTable (s : State) : Prop :=
  (∀ k str, 256 ≤ k → Memory.read s.symtab k = some str → str.length + 254 ≤ k) ∧
  s.last.length + 255 ≤ s.tsize.toNat

/-- The step from `s` to `t` is an engine turn that resets the table at capacity (R156). -/
def ResetsTable (s t : State) : Prop :=
  (∃ es, s.EngineTurn es) ∧ s.tsize = 4095#13 ∧ t.tsize = 256#13

/-- The codewords a run's bytes deliver, in order: two of each full chunk, one of a trailing pair, none of a
trailing single (R131). -/
def deliveredCodes : Str → List Codeword
  | b1 :: b2 :: b3 :: bytes => codeA b1 b2 :: codeB b2 b3 :: deliveredCodes bytes
  | [b1, b2] => [codeT b1 b2]
  | _ => []

/-- The initial dictionary as a plain list of strings (R63). -/
def refInitial : List Str := (List.range 256).map fun i => [BitVec.ofNat 8 i]

/-- The source's `decode(code, lastString)` over a table that is a plain list of strings, indexed by code,
whose length is nextCode; with the checks of R253 (DEDUCED, log entry 16). The answer is the new table and the decoded string. -/
def refDecode (strCap room : Nat) (table : List Str) (last : Str) (c : Nat) :
    Except ErrCode (List Str × Str) :=
  if last = [] then
    match table[c]? with
    | none => .error .corrupt
    | some result => if room < result.length then .error .outOvf else .ok (table, result)
  else
    match (table ++ [last ++ last.take 1])[c]? with
    | none => .error .corrupt
    | some result =>
      if strCap < last.length + 1 then .error .strOvf
      else if room < result.length then .error .outOvf
      else if table.length = 4095 then .ok (refInitial, result)
      else .ok (table ++ [last ++ result.take 1], result)

/-- The driver's loop over the codewords of a run (source §4.3): the output, the error that ended it, and
how many codewords were decoded. -/
def refRun (strCap outCap : Nat) : List Str → Str → Str → List Codeword → Str × ErrCode × Nat
  | _, _, out, [] => (out, .noError, 0)
  | table, last, out, c :: cs =>
    match refDecode strCap (outCap - out.length) table last c.toNat with
    | .error e => (out, e, 0)
    | .ok (table', result) =>
      let r := refRun strCap outCap table' result (out ++ result) cs
      (r.1, r.2.1, r.2.2 + 1)

/-- A run stops by neither a fault nor a refusal in its first `n` steps. -/
def SafeFor (n : Nat) (s : State) : Prop := ∃ t, Host.Core.run Sys2Proof.core n s = .next t

end Sys2Proof.Machine
end

