-- ==== Sys2Proof/Certificates/Slice0/Obligations.lean ====
section
/-! DEFINITION. The statements about the model, each from the rules of spec/ its docstring names. -/

open Sys2Proof Sys2Proof.Machine

/-! ## Encodings -/

/-- R90, R100, R101: the input that encodes a well-formed operation decodes to it in every context that selects
it, with every operand at every value. -/
def Obligations.DecodeOfEncode : Prop :=
  ∀ (ctx : DecodeCtx) (i : Instr) (w : InWord),
    wellFormed i = true → selects ctx i = true → encode i = some w → decode ctx w = .ok i

/-- R90, R100, R101, R102: whatever the decoder answers encodes back to the same bits, and is the operation its
context selects; where TSIZE is in its range between steps, it is well formed. -/
def Obligations.EncodeOfDecode : Prop :=
  ∀ (ctx : DecodeCtx) (w : InWord) (i : Instr), decode ctx w = .ok i →
    encode i = some w ∧ selects ctx i = true ∧
    (256 ≤ ctx.tsize.toNat → ctx.tsize.toNat ≤ 4095 → wellFormed i = true)

/-- R100: "Exactly one class applies". For every codeword, outside the excluded combination of an empty LAST
with TSIZE != 256, there is exactly one operation that the codeword encodes and the context selects. -/
def Obligations.OneCodewordClassApplies : Prop :=
  ∀ (ctx : DecodeCtx) (c : Codeword), (ctx.lastEmpty = true → ctx.tsize.toNat = 256) →
    ∃ i, (encode i = some (.code c) ∧ selects ctx i = true) ∧
      ∀ j, encode j = some (.code c) → selects ctx j = true → j = i

/-- R156, R192: the internal operations have no encoding: no input in any context decodes to one. -/
def Obligations.InternalOperationsNotSelectable : Prop :=
  ∀ (ctx : DecodeCtx) (w : InWord),
    decode ctx w ≠ .ok .tableReset ∧ ∀ result, decode ctx w ≠ .ok (.dAppend result)

/-- 95_test_vectors.md sections 2.1, 2.3 and 2.5: words written out from the spec decode to the operations they
stand for. -/
def Obligations.SpecWordsDecode : Prop :=
  decode startCtx (.token 0x0FF#9) = .ok (.uHold1 0xFF#8) ∧
  decode { startCtx with phase := .one } (.token 0x010#9) = .ok (.uHold2 0x10#8) ∧
  decode { startCtx with phase := .two } (.token 0x042#9) = .ok (.uFull 0x42#8) ∧
  decode startCtx (.token 0x1A5#9) = .ok (.uEnd0 0xA5#8) ∧
  decode startCtx (.code 0x041#16) = .ok (.dFirst 0x041#16) ∧
  decode startCtx (.code 0x100#16) = .ok (.dCorruptFirst 0x100#16) ∧
  decode { phase := .zero, tsize := 257#13, lastEmpty := false } (.code 0x100#16) = .ok (.dHit 0x100#16) ∧
  decode { phase := .zero, tsize := 258#13, lastEmpty := false } (.code 0x102#16) = .ok (.dKwkwk 0x102#16) ∧
  decode { phase := .zero, tsize := 258#13, lastEmpty := false } (.code 0x103#16) = .ok (.dCorrupt 0x103#16) ∧
  decode startCtx (.host 0x10FFFFFFFE#37) = .ok (.wrCtrl 0xFFFFFFFE#32) ∧
  decode startCtx (.host 0x0100000000#37) = .ok (.rdStatus 0#32) ∧
  decode startCtx (.host 0x13FFFFFFFF#37) = .ok (.wrOutAddr 0xFFFFFFFF#32) ∧
  decode startCtx (.host 0x0F00000000#37) = .ok (.rdRsvd 15#4 0#32) ∧
  decode startCtx (.host 0x1C00001234#37) = .ok (.wrRsvd 12#4 0x1234#32)

/-! ## Operand assembly -/

/-- R93, R94, R97: the codewords of a chunk as fields of its bytes taken as one word, and as numbers: code_A and
code_B of a FULL chunk are at most `0xFFF`, code_T of a TRAILING_PAIR is the 16-bit word, unmasked. -/
def Obligations.CodewordsAreChunkFields : Prop :=
  (∀ b1 b2 b3 : Byte,
    codeA b1 b2 = ((b1 ++ b2 ++ b3 : BitVec 24).extractLsb' 12 12).setWidth 16 ∧
    codeB b2 b3 = ((b1 ++ b2 ++ b3 : BitVec 24).extractLsb' 0 12).setWidth 16 ∧
    (codeA b1 b2).toNat = b1.toNat * 16 + b2.toNat / 16 ∧
    (codeB b2 b3).toNat = b2.toNat % 16 * 256 + b3.toNat ∧
    (codeA b1 b2).toNat ≤ 0xFFF ∧ (codeB b2 b3).toNat ≤ 0xFFF) ∧
  (∀ b1 b2 : Byte, codeT b1 b2 = (b1 ++ b2 : BitVec 16) ∧
    (codeT b1 b2).toNat = b1.toNat * 256 + b2.toNat)

/-- R99: "The FULL packing is a bijection between 24-bit words and pairs of 12-bit codewords"; and the inverse
packing of a final odd codeword, `b1 = c >> 8`, `b2 = c & 0xFF`. -/
def Obligations.FullPackingBijective : Prop :=
  (∀ x y : Codeword, x.toNat ≤ 0xFFF → y.toNat ≤ 0xFFF →
    codeA (packB1 x) (packB2 x y) = x ∧ codeB (packB2 x y) (packB3 y) = y) ∧
  (∀ b1 b2 b3 : Byte,
    packB1 (codeA b1 b2) = b1 ∧ packB2 (codeA b1 b2) (codeB b2 b3) = b2 ∧ packB3 (codeB b2 b3) = b3) ∧
  (∀ c : Codeword, c.toNat ≤ 0xFFF → codeT ((c >>> 8).setWidth 8) (packB3 c) = c)

/-! ## The unpacker (one full next state per operation: what is not named is unchanged) -/

/-- R121: the token `0 || b` at UPH = 0, and what it does. -/
def Obligations.UHold1Completes : Prop :=
  ∀ (s : State) (b : Byte), s.inReady → s.uph = .zero →
    exec (.uHold1 b) s = .next { s with ub1 := b, uph := .one, byteCount := s.byteCount + 1#32 } ∧
    decodeToken s.uph (0#1 ++ b) = .uHold1 b

/-- R122: the token `0 || b` at UPH = 1, and what it does: no codeword yet. -/
def Obligations.UHold2Completes : Prop :=
  ∀ (s : State) (b : Byte), s.inReady → s.uph = .one →
    exec (.uHold2 b) s = .next { s with ub2 := b, uph := .two, byteCount := s.byteCount + 1#32 } ∧
    decodeToken s.uph (0#1 ++ b) = .uHold2 b

/-- R123: the token `0 || b3` at UPH = 2; code_A at the head, code_B behind it, both at most `0xFFF`. That UB1 and UB2
keep their values is R128, where X6 allows any (DEDUCED, log entry 14). -/
def Obligations.UFullCompletes : Prop :=
  ∀ (s : State) (b3 : Byte), s.inReady → s.uph = .two →
    ∃ a b : Codeword,
      exec (.uFull b3) s =
        .next { s with cq := [a, b], uph := .zero, byteCount := s.byteCount + 1#32 } ∧
      a.toNat = (s.ub1.toNat <<< 4) ||| (s.ub2.toNat >>> 4) ∧
      b.toNat = ((s.ub2.toNat &&& 0x0F) <<< 8) ||| b3.toNat ∧
      a.toNat ≤ 0xFFF ∧ b.toNat ≤ 0xFFF ∧ decodeToken s.uph (0#1 ++ b3) = .uFull b3

/-- R125, R193: the run ends; nothing but STATE is written, whatever the END token's DATA bits. -/
def Obligations.UEnd0Completes : Prop :=
  ∀ (s : State) (data : Byte), s.inReady → s.uph = .zero →
    exec (.uEnd0 data) s = .next { s with state := .done } ∧
    decodeToken s.uph (1#1 ++ data) = .uEnd0 data

/-- R126: the partial byte is discarded, TRUNC is set, the run ends. That UB1 and UB2 keep their values is R128, where X6
allows any (DEDUCED, log entry 14). -/
def Obligations.UEnd1Completes : Prop :=
  ∀ (s : State) (data : Byte), s.inReady → s.uph = .one →
    exec (.uEnd1 data) s = .next { s with trunc := true, uph := .zero, state := .done } ∧
    decodeToken s.uph (1#1 ++ data) = .uEnd1 data

/-- R127: one codeword of 16 bits, not masked; EOF_SEEN is set, TRUNC and STATE are not written. That UB1 and UB2 keep
their values is R128, where X6 allows any (DEDUCED, log entry 14). -/
def Obligations.UEnd2Completes : Prop :=
  ∀ (s : State) (data : Byte), s.inReady → s.uph = .two →
    ∃ c : Codeword,
      exec (.uEnd2 data) s = .next { s with cq := [c], uph := .zero, eofSeen := true } ∧
      c.toNat = (s.ub1.toNat <<< 8) ||| s.ub2.toNat ∧
      decodeToken s.uph (1#1 ++ data) = .uEnd2 data

/-! ## The decoder and the append -/

/-- R151, R152: a first codeword below 256 whose slot is present is output; the table is unchanged. -/
def Obligations.DFirstCompletes : Prop :=
  ∀ (s : State) (c : Codeword) (result : Str),
    s.decodeReady c → s.tsize.toNat = 256 → s.last = [] → c.toNat < 256 →
    s.symRead c.toNat = some result → s.outLen.toNat + result.length ≤ s.outCap →
    ∃ t, exec (.dFirst c) s = .next t ∧
      t.cq = s.cq.tail ∧ t.lastCode = c ∧ t.last = result ∧
      t.codeCount = s.codeCount + 1#32 ∧
      t.outLen = s.outLen + BitVec.ofNat 32 result.length ∧
      AppendedAt s.outbuf t.outbuf s.outLen.toNat result ∧
      t.tsize = s.tsize ∧ t.symtab = s.symtab ∧
      t.state = (if s.cq.tail = [] ∧ s.eofSeen = true then .done else .run) ∧
      t.errCode = s.errCode ∧ SameBesideDecode s t

/-- R151, R153, R156, R158: the entry is output; LAST followed by the entry's first byte is inserted at TSIZE, with
the table reset when that fills the table. -/
def Obligations.DHitCompletes : Prop :=
  ∀ (s : State) (c : Codeword) (b : Byte) (rest : Str),
    s.decodeReady c → s.last ≠ [] → c.toNat < s.tsize.toNat →
    s.symRead c.toNat = some (b :: rest) → s.last.length + 1 ≤ s.strCap →
    s.outLen.toNat + (b :: rest).length ≤ s.outCap →
    ∃ t, exec (.dHit c) s = .next t ∧
      t.cq = s.cq.tail ∧ t.lastCode = c ∧ t.last = b :: rest ∧
      t.codeCount = s.codeCount + 1#32 ∧
      t.outLen = s.outLen + BitVec.ofNat 32 (b :: rest).length ∧
      AppendedAt s.outbuf t.outbuf s.outLen.toNat (b :: rest) ∧
      InsertedAt s t (s.last ++ [b]) ∧
      t.state = (if s.cq.tail = [] ∧ s.eofSeen = true then .done else .run) ∧
      t.errCode = s.errCode ∧ SameBesideDecode s t

/-- R151, R154, R156, R158: LAST followed by its own first byte is both inserted at TSIZE and output. -/
def Obligations.DKwkwkCompletes : Prop :=
  ∀ (s : State) (c : Codeword) (b : Byte) (rest : Str),
    s.decodeReady c → s.last = b :: rest → c.toNat = s.tsize.toNat →
    s.last.length + 1 ≤ s.strCap → s.outLen.toNat + (s.last.length + 1) ≤ s.outCap →
    ∃ t, exec (.dKwkwk c) s = .next t ∧
      t.cq = s.cq.tail ∧ t.lastCode = c ∧ t.last = s.last ++ [b] ∧
      t.codeCount = s.codeCount + 1#32 ∧
      t.outLen = s.outLen + BitVec.ofNat 32 (s.last.length + 1) ∧
      AppendedAt s.outbuf t.outbuf s.outLen.toNat (s.last ++ [b]) ∧
      InsertedAt s t (s.last ++ [b]) ∧
      t.state = (if s.cq.tail = [] ∧ s.eofSeen = true then .done else .run) ∧
      t.errCode = s.errCode ∧ SameBesideDecode s t

/-- R155, R250, R254: a corrupt codeword, first or later, ends the run in ERROR with ERRCODE = 1; it has left CQ and
stands in LAST_CODE, and nothing else has changed. -/
def Obligations.CorruptCodewordsComplete : Prop :=
  (∀ (s : State) (c : Codeword),
    s.decodeReady c → s.tsize.toNat = 256 → s.last = [] → 256 ≤ c.toNat →
    exec (.dCorruptFirst c) s =
      .next { s with cq := s.cq.tail, lastCode := c, state := .error, errCode := .corrupt }) ∧
  (∀ (s : State) (c : Codeword),
    s.decodeReady c → s.last ≠ [] → s.tsize.toNat < c.toNat →
    exec (.dCorrupt c) s =
      .next { s with cq := s.cq.tail, lastCode := c, state := .error, errCode := .corrupt })

/-- R251, R253, R255: a D_HIT or D_KWKWK whose new string would be longer than STR_CAP ends the run with ERRCODE = 2,
whether or not the output would overflow as well, and has changed nothing but CQ and LAST_CODE. -/
def Obligations.StringOverflowIsPrecise : Prop :=
  (∀ (s : State) (c : Codeword) (entry : Str),
    s.decodeReady c → s.last ≠ [] → c.toNat < s.tsize.toNat → s.symRead c.toNat = some entry →
    s.strCap < s.last.length + 1 →
    exec (.dHit c) s =
      .next { s with cq := s.cq.tail, lastCode := c, state := .error, errCode := .strOvf }) ∧
  (∀ (s : State) (c : Codeword),
    s.decodeReady c → s.last ≠ [] → c.toNat = s.tsize.toNat → s.strCap < s.last.length + 1 →
    exec (.dKwkwk c) s =
      .next { s with cq := s.cq.tail, lastCode := c, state := .error, errCode := .strOvf })

/-- R252, R253, R255: a decode whose result would make OUT_LEN exceed OUT_CAP, its new string being short enough, ends
the run with ERRCODE = 3 and has changed nothing but CQ and LAST_CODE. -/
def Obligations.OutputOverflowIsPrecise : Prop :=
  (∀ (s : State) (c : Codeword) (result : Str),
    s.decodeReady c → s.tsize.toNat = 256 → s.last = [] → c.toNat < 256 →
    s.symRead c.toNat = some result → s.outCap < s.outLen.toNat + result.length →
    exec (.dFirst c) s =
      .next { s with cq := s.cq.tail, lastCode := c, state := .error, errCode := .outOvf }) ∧
  (∀ (s : State) (c : Codeword) (entry : Str),
    s.decodeReady c → s.last ≠ [] → c.toNat < s.tsize.toNat → s.symRead c.toNat = some entry →
    s.last.length + 1 ≤ s.strCap → s.outCap < s.outLen.toNat + entry.length →
    exec (.dHit c) s =
      .next { s with cq := s.cq.tail, lastCode := c, state := .error, errCode := .outOvf }) ∧
  (∀ (s : State) (c : Codeword),
    s.decodeReady c → s.last ≠ [] → c.toNat = s.tsize.toNat → s.last.length + 1 ≤ s.strCap →
    s.outCap < s.outLen.toNat + (s.last.length + 1) →
    exec (.dKwkwk c) s =
      .next { s with cq := s.cq.tail, lastCode := c, state := .error, errCode := .outOvf })

/-- R61: SymRead of a slot that is not present is a fault of the model: D_FIRST and D_HIT stop by name. R61 asks for the
fault at TSIZE and above; that a slot below TSIZE which the list omits, or lists as the empty string, is absent too is the
model's choice (DESIGN CHOICE, log entry 6); by R36 no such slot occurs. -/
def Obligations.AbsentSlotReadFaults : Prop :=
  (∀ (s : State) (c : Codeword),
    s.decodeReady c → s.tsize.toNat = 256 → s.last = [] → c.toNat < 256 →
    s.symRead c.toNat = none → exec (.dFirst c) s = .fault .symReadAbsent) ∧
  (∀ (s : State) (c : Codeword),
    s.decodeReady c → s.last ≠ [] → c.toNat < s.tsize.toNat →
    s.symRead c.toNat = none → exec (.dHit c) s = .fault .symReadAbsent)

/-- R156, R63: TABLE_RESET leaves TSIZE = 256 and the 256 single-byte entries, every other slot absent, and nothing
else changed; in particular LAST is not cleared. That it is an operation of its own, enabled with STATE = RUN and
TSIZE = 4096, is the model's choice (DESIGN CHOICE, log entry 9); in the block it happens only inside D_HIT or D_KWKWK. -/
def Obligations.TableResetCompletes : Prop :=
  ∀ s : State, s.state = .run → s.tsize.toNat = 4096 →
    ∃ tab, exec .tableReset s = .next { s with symtab := tab, tsize := 256#13 } ∧
      ∀ k, Memory.read tab k = if k < 256 then some [BitVec.ofNat 8 k] else none

/-- R65, R192: D_APPEND puts the result at OUT_LEN, lowest byte first, and LAST takes it; a result that does not fit
raises OUT_OVF and appends nothing. That it is an operation of its own, enabled with STATE = RUN and with its own check,
is the model's choice (DESIGN CHOICE, log entry 9); in the block it ends a decode step, the check before any write. -/
def Obligations.DAppendCompletes : Prop :=
  (∀ (s : State) (result : Str), s.state = .run → s.outLen.toNat + result.length ≤ s.outCap →
    ∃ buf, exec (.dAppend result) s =
        .next { s with outbuf := buf, outLen := s.outLen + BitVec.ofNat 32 result.length
                       last := result } ∧
      AppendedAt s.outbuf buf s.outLen.toNat result) ∧
  (∀ (s : State) (result : Str), s.state = .run → s.outCap < s.outLen.toNat + result.length →
    exec (.dAppend result) s = .next { s with state := .error, errCode := .outOvf })

/-! ## The host commands -/

/-- R211, R214 to R216, R219 to R222, R224: each read returns its register's word, in every STATE, and changes
nothing else. The fields of CTRL and STATUS are stated in `HostRegisterFields`. -/
def Obligations.HostReadsComplete : Prop :=
  ∀ (s : State) (v : Word),
    exec (.rdCtrl v) s = .next { s with hostRdata := s.ctrlReg } ∧
    exec (.rdStatus v) s = .next { s with hostRdata := s.statusReg } ∧
    exec (.rdOutLen v) s = .next { s with hostRdata := s.outLen } ∧
    exec (.rdOutAddr v) s = .next { s with hostRdata := s.outAddr } ∧
    exec (.rdTableSize v) s = .next { s with hostRdata := s.tsize.setWidth 32 } ∧
    exec (.rdCodeCount v) s = .next { s with hostRdata := s.codeCount } ∧
    exec (.rdLastCode v) s = .next { s with hostRdata := s.lastCode.setWidth 32 } ∧
    exec (.rdByteCount v) s = .next { s with hostRdata := s.byteCount } ∧
    ∀ idx : RegIdx, exec (.rdRsvd idx v) s = .next { s with hostRdata := 0#32 }

/-- R66, R218: RD OUT_DATA returns the output byte at OUT_ADDR below OUT_LEN, and 0 at or above it; OUT_ADDR does not
advance. -/
def Obligations.RdOutDataCompletes : Prop :=
  (∀ (s : State) (v : Word), s.outLen.toNat ≤ s.outAddr.toNat →
    exec (.rdOutData v) s = .next { s with hostRdata := 0#32 }) ∧
  (∀ (s : State) (v : Word) (b : Byte), s.outAddr.toNat < s.outLen.toNat →
    Memory.read s.outbuf s.outAddr.toNat = some b →
    exec (.rdOutData v) s = .next { s with hostRdata := b.setWidth 32 })

/-- R44, R45, with the encodings of STATE (R22) and ERRCODE (R23): the fields of CTRL and STATUS as read, the reserved bits
among them. -/
def Obligations.HostRegisterFields : Prop :=
  ∀ s : State,
    s.ctrlReg.getLsbD 0 = false ∧ s.ctrlReg.getLsbD 1 = s.irqEn ∧ s.ctrlReg.extractLsb' 2 30 = 0#30 ∧
    (s.state = .idle → s.statusReg.extractLsb' 0 2 = 0#2) ∧
    (s.state = .run → s.statusReg.extractLsb' 0 2 = 1#2) ∧
    (s.state = .done → s.statusReg.extractLsb' 0 2 = 2#2) ∧
    (s.state = .error → s.statusReg.extractLsb' 0 2 = 3#2) ∧
    s.statusReg.getLsbD 2 = s.trunc ∧ s.statusReg.getLsbD 3 = false ∧
    (s.errCode = .noError → s.statusReg.extractLsb' 4 4 = 0#4) ∧
    (s.errCode = .corrupt → s.statusReg.extractLsb' 4 4 = 1#4) ∧
    (s.errCode = .strOvf → s.statusReg.extractLsb' 4 4 = 2#4) ∧
    (s.errCode = .outOvf → s.statusReg.extractLsb' 4 4 = 3#4) ∧
    s.statusReg.extractLsb' 8 24 = 0#24

/-- R223, R225: a write of a read-only register or of a reserved index has no effect at all. -/
def Obligations.IgnoredWritesComplete : Prop :=
  ∀ (s : State) (v : Word),
    exec (.wrStatus v) s = .next s ∧ exec (.wrOutLen v) s = .next s ∧
    exec (.wrOutData v) s = .next s ∧ exec (.wrTableSize v) s = .next s ∧
    exec (.wrCodeCount v) s = .next s ∧ exec (.wrLastCode v) s = .next s ∧
    exec (.wrByteCount v) s = .next s ∧ ∀ idx : RegIdx, exec (.wrRsvd idx v) s = .next s

/-- R217. -/
def Obligations.WrOutAddrCompletes : Prop :=
  ∀ (s : State) (v : Word), exec (.wrOutAddr v) s = .next { s with outAddr := v }

/-- R212, R213: WR CTRL writes IRQ_EN from bit 1. With bit 0 clear, or during a run, that is all; with bit 0 set and no
run in progress it starts one: every run-scoped element is reinitialised, the table is the initial one, and OUT_ADDR,
the bytes of OUTBUF and the input source are left alone. -/
def Obligations.WrCtrlCompletes : Prop :=
  (∀ (s : State) (v : Word), v.getLsbD 0 = false ∨ s.state = .run →
    exec (.wrCtrl v) s = .next { s with irqEn := v.getLsbD 1 }) ∧
  (∀ (s : State) (v : Word), v.getLsbD 0 = true → s.state ≠ .run →
    ∃ tab,
      exec (.wrCtrl v) s = .next
        { s with
          irqEn := v.getLsbD 1, state := .run, errCode := .noError, trunc := false
          outLen := 0#32, codeCount := 0#32, byteCount := 0#32, lastCode := 0#16
          uph := .zero, ub1 := 0#8, ub2 := 0#8, cq := [], eofSeen := false, last := []
          symtab := tab, tsize := 256#13 } ∧
      ∀ k, Memory.read tab k = if k < 256 then some [BitVec.ofNat 8 k] else none)

/-- R42, R260: irq is high exactly when IRQ_EN is set and the run has ended, whatever else the state holds. -/
def Obligations.IrqIsTheEndOfRunLevel : Prop :=
  ∀ s : State, s.irq = true ↔ s.irqEn = true ∧ (s.state = .done ∨ s.state = .error)

/-! ## Reset -/

/-- R55: the reset value of every element of the block that has one, for every pair of parameters; `State.reset` is one
of these states. The bytes of OUTBUF have none. -/
def Obligations.ResetValues : Prop :=
  ∀ outCap strCap : Nat, ∀ s : State, s = State.resetWith outCap strCap →
    s.state = .idle ∧ s.errCode = .noError ∧ s.trunc = false ∧ s.irqEn = false ∧ s.outAddr = 0#32 ∧
    s.outLen = 0#32 ∧ s.codeCount = 0#32 ∧ s.byteCount = 0#32 ∧ s.lastCode = 0#16 ∧ s.uph = .zero ∧
    s.ub1 = 0#8 ∧ s.ub2 = 0#8 ∧ s.cq = [] ∧ s.eofSeen = false ∧ s.last = [] ∧ s.tsize = 256#13 ∧
    (∀ k, Memory.read s.symtab k = if k < 256 then some [BitVec.ofNat 8 k] else none) ∧
    ¬ s.inReady ∧ s.irq = false ∧
    ∃ defaultOutCap defaultStrCap, State.reset = State.resetWith defaultOutCap defaultStrCap

/-- R280: a hardware reset is one step that may occur in any state; the block is then as after reset, and the tokens the
source still offers are not affected. -/
def Obligations.HardwareResetStep : Prop :=
  ∀ (s : State) (es : List Event), s.events = .hwReset :: es →
    step s = .next { State.resetWith s.outCap s.strCap with
      hostRdata := s.hostRdata, source := s.source, events := es }

/-! ## The step -/

/-- R120, R191: in the engine's turn with in_ready = 1 and a token offered, the step is the operation that the token and
UPH select, the token consumed. -/
def Obligations.StepRunsTheToken : Prop :=
  ∀ (s : State) (es : List Event) (t : Token) (ts : List Token),
    s.EngineTurn es → s.inReady → s.source = t :: ts →
    step s = exec (decodeToken s.uph t) { s with events := es, source := ts }

/-- R150, R191: in the engine's turn with STATE = RUN and a codeword at the head of CQ, the step is the operation of the
codeword's class; an empty LAST with TSIZE != 256 is a fault of the model (R157). -/
def Obligations.StepRunsTheCodeword : Prop :=
  ∀ (s : State) (es : List Event) (c : Codeword),
    s.EngineTurn es → s.decodeReady c →
    (∀ i, decode s.ctx (.code c) = .ok i → step s = exec i { s with events := es }) ∧
    (s.last = [] → s.tsize.toNat ≠ 256 → step s = .fault .emptyLast)

/-- R210, R101: a host access is one step, the command's own effect, whatever the engine is doing. -/
def Obligations.StepRunsTheHostCommand : Prop :=
  ∀ (s : State) (h : HostCmd) (es : List Event) (i : Instr),
    s.events = .host h :: es → decode s.ctx (.host h) = .ok i →
    step s = exec i { s with events := es }

/-- R191, R41: the engine has no other step: outside RUN, or with CQ empty and no token offered, its turn changes
nothing, and an offered token stays offered. -/
def Obligations.EngineOtherwiseWaits : Prop :=
  ∀ (s : State) (es : List Event), s.EngineTurn es →
    s.state ≠ .run ∨ (s.cq = [] ∧ s.source = []) ∨ (s.cq = [] ∧ s.eofSeen = true) →
    step s = .next { s with events := es }

/-- R39, R197, R292: the world's own steps: a token is offered behind those offered before; the host withdraws what the
source still offers. -/
def Obligations.SourceSteps : Prop :=
  (∀ (s : State) (t : Token) (es : List Event), s.events = .offer t :: es →
    step s = .next { s with events := es, source := s.source ++ [t] }) ∧
  (∀ (s : State) (es : List Event), s.events = .withdraw :: es →
    step s = .next { s with events := es, source := [] })

/-! ## Invariants and whole-machine rules -/

/-- R38, at reset: the invariants hold after hardware reset, for every legal pair of parameters. -/
def Obligations.ResetMeetsInv : Prop :=
  (∀ outCap strCap : Nat, Config.legalOutCap outCap → Config.legalStrCap strCap →
    (State.resetWith outCap strCap).Inv) ∧ State.reset.Inv

/-- R38: from every state that meets the invariants, every step of every agent leaves a state that meets them. -/
def Obligations.StepKeepsInv : Prop :=
  ∀ s t : State, s.Inv → step s = .next t → t.Inv

/-- R268, R157, R61: in a state that meets the invariants no step stops: neither of the two model faults can be reached,
whatever the input, the host and the order of the agents, and no operation is asked for where it is not enabled. -/
def Obligations.InvStepNeverStops : Prop :=
  ∀ s : State, s.Inv → ∃ t, step s = .next t

/-- The canonical form of both memories is kept by every step from every state, whether it meets R38 or not; the
parameters of the block are never written. -/
def Obligations.StepKeepsMemoryForm : Prop :=
  ∀ s t : State, step s = .next t →
    (Memory.wf s.symtab = true → Memory.wf t.symtab = true) ∧
    (Memory.wf (α := Byte) s.outbuf = true → Memory.wf (α := Byte) t.outbuf = true) ∧
    t.outCap = s.outCap ∧ t.strCap = s.strCap

/-- R27, R65, R78: unless the step starts a run or resets the block, OUT_LEN does not shrink and no output byte below it
changes. -/
def Obligations.OutputIsAppendOnly : Prop :=
  ∀ s t : State, s.Inv → step s = .next t → ¬ s.NextIsReset → ¬ s.NextStartsRun → OutputGrows s t

/-- R25, R26, R80: only a host write of CTRL, or a hardware reset, changes IRQ_EN; only a host write of OUT_ADDR, or a
hardware reset, changes OUT_ADDR. -/
def Obligations.OnlyTheHostWritesItsRegisters : Prop :=
  ∀ s t : State, step s = .next t →
    (t.irqEn ≠ s.irqEn → s.NextIsReset ∨ ∃ v, s.NextWritesCtrl v ∧ t.irqEn = v.getLsbD 1) ∧
    (t.outAddr ≠ s.outAddr → s.NextIsReset ∨ ∃ v, s.NextWritesOutAddr v ∧ t.outAddr = v)

/-- R22, R200, R210, R259: STATE changes in three ways only: to IDLE by hardware reset; to RUN by a START that finds no
run; from RUN to DONE or ERROR in the engine's turn. So ERROR is left only by START or reset, and a run only by its own
end or reset. -/
def Obligations.StateChangesOnlyThus : Prop :=
  ∀ s t : State, step s = .next t → t.state ≠ s.state →
    (s.NextIsReset ∧ t.state = .idle) ∨ (s.NextStartsRun ∧ t.state = .run) ∨
    (s.state = .run ∧ (∃ es, s.EngineTurn es) ∧ (t.state = .done ∨ t.state = .error))

/-- R254, R255: a step that enters ERROR has written STATE, ERRCODE, LAST_CODE, CQ and nothing else; CQ has lost exactly the
codeword that LAST_CODE holds. -/
def Obligations.ErrorsArePrecise : Prop :=
  ∀ (s t : State) (es : List Event), s.EngineTurn es → step s = .next t → s.state ≠ .error → t.state = .error →
    ∃ c cs e, s.cq = c :: cs ∧ e ≠ .noError ∧
      t = { s with events := es, state := .error, errCode := e, lastCode := c, cq := cs }

/-- R24, R126, R256: a step that sets TRUNC is an engine turn that consumes the END token after one byte of a chunk; it ends
the run in DONE with ERRCODE unchanged. Only a START that finds no run, or a hardware reset, clears TRUNC. -/
def Obligations.TruncIsTheTrailingSingle : Prop :=
  ∀ s t : State, step s = .next t →
    (s.trunc = false → t.trunc = true →
      (∃ es, s.EngineTurn es) ∧ s.inReady ∧ s.uph = .one ∧
      (∃ data, s.source = endToken data :: t.source) ∧
      t.state = .done ∧ t.errCode = s.errCode) ∧
    (s.trunc = true → t.trunc = false → s.NextIsReset ∨ s.NextStartsRun)

/-- R41, R120: a step takes tokens from the source only in the engine's turn with in_ready = 1, and then exactly the one
at the head; every other step but a withdrawal leaves every offered token offered. -/
def Obligations.TokensAreTakenOneByOne : Prop :=
  ∀ s t : State, step s = .next t → (∀ es, s.events ≠ .withdraw :: es) →
    (∃ more, t.source = s.source ++ more) ∨
    (s.inReady ∧ (∃ es, s.EngineTurn es) ∧ ∃ tok, s.source = tok :: t.source)

/-- R159: of the steps of the engine, a successful D_HIT or D_KWKWK raises TSIZE by one or, when that makes 4096, leaves it
256; every other leaves it unchanged. -/
def Obligations.TableGrowth : Prop :=
  ∀ (s t : State) (es : List Event), s.Inv → s.EngineTurn es → step s = .next t →
    (s.last ≠ [] ∧ t.codeCount = s.codeCount + 1#32 ∧
      t.tsize.toNat = (if s.tsize.toNat = 4095 then 256 else s.tsize.toNat + 1)) ∨
    (t.tsize = s.tsize ∧ t.symtab = s.symtab ∧ (s.last = [] ∨ t.codeCount = s.codeCount))

/-- R161: until a run's first table reset, entry k is at most k - 254 bytes long, so every string of the table and every
result is at most 3841 bytes: a START leaves such a state, and every step of every agent keeps it unless it resets the
table, and even then its result is at most 3841 bytes. -/
def Obligations.FirstTableStringsAreShort : Prop :=
  (∀ s : State, s.state ≠ .run → s.start.FirstTable) ∧
  (∀ s t : State, s.Inv → s.FirstTable → step s = .next t →
    t.last.length ≤ 3841 ∧ (¬ ResetsTable s t → t.FirstTable)) ∧
  (∀ s : State, s.Inv → s.FirstTable →
    ∀ k str, Memory.read s.symtab k = some str → str.length ≤ 3841)

/-- R155, R161: every codeword above `0xFFF`, and the code 4095 unless TSIZE = 4095, is corrupt at every decode step of a
state that meets the invariants. -/
def Obligations.UnreachableCodesAreCorrupt : Prop :=
  ∀ (s : State) (c : Codeword), s.Inv → s.decodeReady c →
    0xFFF < c.toNat ∨ (c.toNat = 4095 ∧ s.tsize.toNat ≠ 4095) →
    decode s.ctx (.code c) = .ok (.dCorruptFirst c) ∨ decode s.ctx (.code c) = .ok (.dCorrupt c)

/-- R31 to R34, R36: what the host reads does not depend on UPH, UB1, UB2, CQ, EOF_SEEN, LAST or SYMTAB: the same access in two
states that differ in no more than these gives the host the same word, and leaves the same irq. -/
def Obligations.HiddenStateIsInvisible : Prop :=
  ∀ (s t s' t' : State) (h : HostCmd) (es es' : List Event), SameToHost s t →
    s.events = .host h :: es → t.events = .host h :: es' → step s = .next s' → step t = .next t' →
    cmdWrite h = false → t'.hostRdata = s'.hostRdata ∧ t'.irq = s'.irq

/-- R198: two runs given the same tokens, host accesses and order of steps agree, whatever ran before: a START makes any two
states without a run in progress indistinguishable, and every step keeps them so. -/
def Obligations.RunsAreIndependentOfHistory : Prop :=
  (∀ s t : State, s.state ≠ .run → t.state ≠ .run → t.source = s.source →
    t.events = s.events → t.outCap = s.outCap → t.strCap = s.strCap → SameRun s.start t.start) ∧
  (∀ s t : State, s.Inv → SameRun s t →
    ∃ s' t', step s = .next s' ∧ step t = .next t' ∧ SameRun s' t')

/-- R131, R194, R196, R193, R213, against the source's algorithm written over plain lists (`refRun`): from any state without a run in
progress, when the host writes START and the source offers a run's bytes and then END, the machine ends the run; it ends in
DONE with the output of all delivered codewords when the algorithm decodes them all, and otherwise in ERROR with the
algorithm's error and the output of the codewords before the failing one. -/
def Obligations.RunDecodesTheStream : Prop :=
  ∀ (s : State) (v : Word) (bytes : Str) (data : Byte) (rest : List Token),
    s.ParamsOk → s.state ≠ .run → v.getLsbD 0 = true → s.events = [.host (mkCmd true 0 v)] →
    s.source = bytes.map byteToken ++ endToken data :: rest →
    ∃ n t, Host.Core.run Sys2Proof.core n s = .next t ∧
      ∃ out e k, refRun s.strCap s.outCap refInitial [] [] (deliveredCodes bytes) = (out, e, k) ∧
        t.state = (if e = .noError then .done else .error) ∧ t.errCode = e ∧
        t.OutputIs out ∧ t.codeCount = BitVec.ofNat 32 k ∧
        (e = .noError → t.source = rest ∧ t.byteCount = BitVec.ofNat 32 bytes.length ∧
          t.trunc = decide (bytes.length % 3 = 1))
end

