-- ==== Sys2Proof/Laws/Decode.lean ====
section
/-! SUPPORT. The fields of tokens and host commands, and what the decoder answers. -/

namespace Sys2Proof

@[simp] theorem tokenEnd_byteToken (b : Byte) : tokenEnd (byteToken b) = false := by
  revert b; decide

@[simp] theorem tokenData_byteToken (b : Byte) : tokenData (byteToken b) = b := by
  revert b; decide

@[simp] theorem tokenEnd_endToken (b : Byte) : tokenEnd (endToken b) = true := by
  revert b; decide

@[simp] theorem tokenData_endToken (b : Byte) : tokenData (endToken b) = b := by
  revert b; decide

/-- The operation of a BYTE token, by UPH (R121 to R123). -/
theorem decodeToken_byte (p : Phase) (b : Byte) :
    decodeToken p (byteToken b) = match p with
      | .zero => .uHold1 b
      | .one => .uHold2 b
      | .two => .uFull b := by
  cases p <;> simp [decodeToken]

/-- The operation of an END token, by UPH (R125 to R127). -/
theorem decodeToken_end (p : Phase) (data : Byte) :
    decodeToken p (endToken data) = match p with
      | .zero => .uEnd0 data
      | .one => .uEnd1 data
      | .two => .uEnd2 data := by
  cases p <;> simp [decodeToken]

/-- A token is the byte token or the END token of its data. -/
theorem token_eq (t : Token) :
    t = if tokenEnd t then endToken (tokenData t) else byteToken (tokenData t) := by
  revert t; decide

@[simp] theorem cmdWrite_mkCmd (we : Bool) (idx : RegIdx) (v : Word) : cmdWrite (mkCmd we idx v) = we := by
  simp only [cmdWrite, mkCmd, BitVec.getLsbD_append]
  simp

@[simp] theorem cmdIdx_mkCmd (we : Bool) (idx : RegIdx) (v : Word) : cmdIdx (mkCmd we idx v) = idx := by
  apply BitVec.eq_of_getLsbD_eq
  intro i hi
  simp only [cmdIdx, mkCmd, BitVec.getLsbD_extractLsb', BitVec.getLsbD_append]
  have h1 : ¬ (32 + i < 32) := by omega
  have h2 : 32 + i - 32 = i := by omega
  simp [hi, h2]

@[simp] theorem cmdData_mkCmd (we : Bool) (idx : RegIdx) (v : Word) : cmdData (mkCmd we idx v) = v := by
  apply BitVec.eq_of_getLsbD_eq
  intro i hi
  simp only [cmdData, mkCmd, BitVec.getLsbD_extractLsb', BitVec.getLsbD_append]
  simp [hi]

/-- A host command is its three fields. -/
theorem mkCmd_fields (h : HostCmd) : mkCmd (cmdWrite h) (cmdIdx h) (cmdData h) = h := by
  apply BitVec.eq_of_getLsbD_eq
  intro i hi
  simp only [mkCmd, BitVec.getLsbD_append, cmdData, cmdIdx, cmdWrite, BitVec.getLsbD_extractLsb',
    BitVec.getLsbD_ofBool]
  by_cases h1 : i < 32
  · simp [h1]
  · by_cases h2 : i < 36
    · have : i - 32 < 4 := by omega
      have e : 32 + (i - 32) = i := by omega
      simp [h1, this, e]
    · have : ¬ (i - 32 < 4) := by omega
      have e : i = 36 := by omega
      subst e
      simp

/-- What the decoder answers for a codeword: the class of R100, or the rejection of R157. -/
theorem decodeCode_cases (tsize : BitVec 13) (lastEmpty : Bool) (c : Codeword) :
    (lastEmpty = true ∧ tsize.toNat ≠ 256 ∧ decodeCode tsize lastEmpty c = .error .emptyLast) ∨
    (lastEmpty = true ∧ tsize.toNat = 256 ∧ c.toNat < 256 ∧ decodeCode tsize lastEmpty c = .ok (.dFirst c)) ∨
    (lastEmpty = true ∧ tsize.toNat = 256 ∧ 256 ≤ c.toNat ∧
      decodeCode tsize lastEmpty c = .ok (.dCorruptFirst c)) ∨
    (lastEmpty = false ∧ c.toNat < tsize.toNat ∧ decodeCode tsize lastEmpty c = .ok (.dHit c)) ∨
    (lastEmpty = false ∧ c.toNat = tsize.toNat ∧ decodeCode tsize lastEmpty c = .ok (.dKwkwk c)) ∨
    (lastEmpty = false ∧ tsize.toNat < c.toNat ∧ decodeCode tsize lastEmpty c = .ok (.dCorrupt c)) := by
  unfold decodeCode
  cases lastEmpty
  · rcases Nat.lt_trichotomy c.toNat tsize.toNat with h | h | h
    · simp [h]
    · simp [h]
    · have h1 : ¬ c.toNat < tsize.toNat := by omega
      have h2 : ¬ c.toNat = tsize.toNat := by omega
      simp [h, h1, h2]
  · by_cases h : tsize.toNat = 256
    · by_cases h2 : c.toNat < 256
      · simp [h, h2]
      · have : 256 ≤ c.toNat := by omega
        simp [h, h2, this]
    · simp [h]

/-- The host command that the fields of a command select (R101). -/
theorem decodeHost_mkCmd (we : Bool) (idx : RegIdx) (v : Word) :
    decodeHost (mkCmd we idx v) = match we, idx.toNat with
      | false, 0 => .rdCtrl v
      | true, 0 => .wrCtrl v
      | false, 1 => .rdStatus v
      | true, 1 => .wrStatus v
      | false, 2 => .rdOutLen v
      | true, 2 => .wrOutLen v
      | false, 3 => .rdOutAddr v
      | true, 3 => .wrOutAddr v
      | false, 4 => .rdOutData v
      | true, 4 => .wrOutData v
      | false, 5 => .rdTableSize v
      | true, 5 => .wrTableSize v
      | false, 6 => .rdCodeCount v
      | true, 6 => .wrCodeCount v
      | false, 7 => .rdLastCode v
      | true, 7 => .wrLastCode v
      | false, 8 => .rdByteCount v
      | true, 8 => .wrByteCount v
      | false, _ => .rdRsvd idx v
      | true, _ => .wrRsvd idx v := by
  unfold decodeHost
  simp only [cmdWrite_mkCmd, cmdIdx_mkCmd, cmdData_mkCmd] <;> rfl

/-- A command on a reserved index (R224, R225). -/
theorem decodeHost_rsvd (we : Bool) (idx : RegIdx) (v : Word) (h : 9 ≤ idx.toNat) :
    decodeHost (mkCmd we idx v) = if we then .wrRsvd idx v else .rdRsvd idx v := by
  rw [decodeHost_mkCmd]
  split <;> first | omega | rfl

end Sys2Proof
end

