-- ==== Sys2Proof/Laws/Memory.lean ====
section
/-! SUPPORT. The laws of a memory: a read after a write, and that every operation keeps the canonical form. -/

namespace Sys2Proof.Machine

variable {α : Type}

@[simp] theorem Memory.read_nil (a : Nat) : Memory.read ([] : Memory α) a = none := rfl

/-- A read after a write: the value written at that address, what was there before at every other. -/
theorem Memory.read_write (m : Memory α) (a b : Nat) (v : α) :
    Memory.read (Memory.write m a v) b = if b = a then some v else Memory.read m b := by
  induction m with
  | nil => simp only [Memory.write, Memory.read, eq_comm]
  | cons c m ih =>
    obtain ⟨k, w⟩ := c
    simp only [Memory.write]
    split
    · simp only [Memory.read, eq_comm]
    · split
      · rename_i _ h
        subst h
        simp only [Memory.read]
        split <;> rename_i h <;> simp [h, eq_comm]
      · rename_i h1 h2
        simp only [Memory.read, ih]
        by_cases hk : k = b
        · subst hk
          simp [Ne.symm h2]
        · simp [hk]

@[simp] theorem Memory.read_write_same (m : Memory α) (a : Nat) (v : α) :
    Memory.read (Memory.write m a v) a = some v := by simp [Memory.read_write]

theorem Memory.read_write_other (m : Memory α) {a b : Nat} (v : α) (h : b ≠ a) :
    Memory.read (Memory.write m a v) b = Memory.read m b := by simp [Memory.read_write, h]

/-- A read after a string is written: the string's byte inside its range, what was there before outside. -/
theorem Memory.read_writeStr (s : Str) (m : Memory Byte) (a b : Nat) :
    Memory.read (Memory.writeStr m a s) b =
      if a ≤ b ∧ b < a + s.length then s[b - a]? else Memory.read m b := by
  induction s generalizing m a with
  | nil =>
    rw [if_neg (by simp only [List.length_nil]; omega)]
    rfl
  | cons x s ih =>
    simp only [Memory.writeStr, ih, Memory.read_write, List.length_cons]
    by_cases h1 : b = a
    · subst h1
      simp
    · by_cases h2 : a + 1 ≤ b ∧ b < a + 1 + s.length
      · rw [if_pos h2, if_pos (by omega)]
        obtain ⟨n, hn⟩ : ∃ n, b - a = n + 1 := ⟨b - a - 1, by omega⟩
        rw [hn, List.getElem?_cons_succ]
        congr 1
        omega
      · rw [if_neg h2, if_neg h1, if_neg (by omega)]

/-- The canonical form says that every address is below those after it. -/
theorem Memory.wf_cons (k : Nat) (w : α) (m : Memory α) :
    Memory.wf ((k, w) :: m) = true ↔ (∀ c ∈ m, k < c.1) ∧ Memory.wf m = true := by
  simp [Memory.wf, List.all_eq_true]

/-- An address written is the new one or was there. -/
theorem Memory.mem_write {m : Memory α} {a : Nat} {v : α} {c : Nat × α}
    (h : c ∈ Memory.write m a v) : c = (a, v) ∨ c ∈ m := by
  induction m with
  | nil => simpa [Memory.write] using h
  | cons d m ih =>
    obtain ⟨k, w⟩ := d
    simp only [Memory.write] at h
    split at h
    · simpa using h
    · split at h
      · rcases List.mem_cons.1 h with h | h
        · exact .inl h
        · exact .inr (List.mem_cons_of_mem _ h)
      · rcases List.mem_cons.1 h with h | h
        · exact .inr (by simp [h])
        · exact (ih h).imp id (List.mem_cons_of_mem _)

/-- A write keeps the canonical form. -/
theorem Memory.wf_write (m : Memory α) (a : Nat) (v : α) (h : Memory.wf m = true) :
    Memory.wf (Memory.write m a v) = true := by
  induction m with
  | nil => simp [Memory.write, Memory.wf]
  | cons c m ih =>
    obtain ⟨k, w⟩ := c
    obtain ⟨hk, hm⟩ := (Memory.wf_cons k w m).1 h
    simp only [Memory.write]
    split
    · rename_i hak
      refine (Memory.wf_cons _ _ _).2 ⟨fun c hc => ?_, h⟩
      rcases List.mem_cons.1 hc with rfl | hc
      · exact hak
      · exact Nat.lt_trans hak (hk c hc)
    · split
      · rename_i _ hak
        subst hak
        exact (Memory.wf_cons _ _ _).2 ⟨hk, hm⟩
      · rename_i h1 h2
        refine (Memory.wf_cons _ _ _).2 ⟨fun c hc => ?_, ih hm⟩
        rcases Memory.mem_write hc with rfl | hc
        · simp only; omega
        · exact hk c hc

/-- Writing a string keeps the canonical form. -/
theorem Memory.wf_writeStr (s : Str) (m : Memory Byte) (a : Nat) (h : Memory.wf m = true) :
    Memory.wf (Memory.writeStr m a s) = true := by
  induction s generalizing m a with
  | nil => exact h
  | cons b s ih => exact ih _ _ (Memory.wf_write m a b h)

/-- In canonical form two memories that read alike are equal as data. -/
theorem Memory.ext_of_wf {m n : Memory α} (hm : Memory.wf m = true) (hn : Memory.wf n = true)
    (h : ∀ a, Memory.read m a = Memory.read n a) : m = n := by
  have below : ∀ {k : Nat} {p : Memory α}, (∀ c ∈ p, k < c.1) → ∀ a, a ≤ k → Memory.read p a = none := by
    intro k p
    induction p with
    | nil => intros; rfl
    | cons d p ihp =>
      intro hd a ha
      have := hd d (by simp)
      simp only [Memory.read]
      rw [if_neg (by omega)]
      exact ihp (fun c hc => hd c (List.mem_cons_of_mem _ hc)) a ha
  induction m generalizing n with
  | nil =>
    cases n with
    | nil => rfl
    | cons d n => simpa [Memory.read] using h d.1
  | cons c m ih =>
    cases n with
    | nil => simpa [Memory.read] using h c.1
    | cons d n =>
      obtain ⟨k, v⟩ := c
      obtain ⟨l, w⟩ := d
      obtain ⟨hk, hm'⟩ := (Memory.wf_cons _ _ _).1 hm
      obtain ⟨hl, hn'⟩ := (Memory.wf_cons _ _ _).1 hn
      have e1 := h k
      have e2 := h l
      simp only [Memory.read, if_true] at e1 e2
      have hkl : k = l := by
        by_contra hne
        rcases Nat.lt_or_gt_of_ne hne with hlt | hlt
        · rw [if_neg (Ne.symm hne), below hl k hlt.le] at e1
          simp at e1
        · rw [if_neg hne, below hk l hlt.le] at e2
          simp at e2
      subst hkl
      simp only [if_true, Option.some.injEq] at e1
      subst e1
      have : m = n := by
        refine ih hm' hn' fun a => ?_
        have ea := h a
        simp only [Memory.read] at ea
        by_cases hka : k = a
        · rw [below hk a hka.ge, below hl a hka.ge]
        · simpa [hka] using ea
      rw [this]

/-- A table of the strings `[0]` to `[n - 1]`, the bytes modulo 256. -/
theorem read_rangeTable (n k : Nat) :
    Memory.read ((List.range n).map fun i => (i, [BitVec.ofNat 8 i])) k =
      if k < n then some [BitVec.ofNat 8 k] else none := by
  have key : ∀ (n a k : Nat), Memory.read ((List.range' a n).map fun i => (i, [BitVec.ofNat 8 i])) k =
      if a ≤ k ∧ k < a + n then some [BitVec.ofNat 8 k] else none := by
    intro n
    induction n with
    | zero => intro a k; rw [if_neg (by omega)]; rfl
    | succ n ih =>
      intro a k
      simp only [List.range'_succ, List.map_cons, Memory.read, ih]
      by_cases h : a = k
      · subst h; simp
      · rw [if_neg h]
        congr 1
        simp only [eq_iff_iff]
        omega
  have := key n 0 k
  simpa [List.range_eq_range'] using this

theorem wf_rangeTable (n : Nat) :
    Memory.wf ((List.range n).map fun i => (i, [BitVec.ofNat 8 i])) = true := by
  have key : ∀ (n a : Nat), Memory.wf ((List.range' a n).map fun i => (i, [BitVec.ofNat 8 i])) = true := by
    intro n
    induction n with
    | zero => intro a; rfl
    | succ n ih =>
      intro a
      rw [List.range'_succ, List.map_cons, Memory.wf_cons]
      refine ⟨fun c hc => ?_, ih _⟩
      simp only [List.mem_map, List.mem_range'_1] at hc
      obtain ⟨i, hi, rfl⟩ := hc
      simp only
      omega
  simpa [List.range_eq_range'] using key n 0

/-- The initial table holds `[i]` at i < 256 and nothing else. -/
theorem read_initTable (k : Nat) :
    Memory.read initTable k = if k < 256 then some [BitVec.ofNat 8 k] else none := read_rangeTable 256 k

theorem wf_initTable : Memory.wf initTable = true := wf_rangeTable 256

end Sys2Proof.Machine
end

