-- ==== Sys2Proof/Laws/State.lean ====
section
/-! SUPPORT. One lemma per field per update of the state, so that no later proof unfolds a record update. -/

namespace Sys2Proof.Machine

variable (s : State)

/-! symWrite -/

@[simp] theorem State.symWrite_state (x : Str) : (s.symWrite x).state = s.state := rfl
@[simp] theorem State.symWrite_errCode (x : Str) : (s.symWrite x).errCode = s.errCode := rfl
@[simp] theorem State.symWrite_trunc (x : Str) : (s.symWrite x).trunc = s.trunc := rfl
@[simp] theorem State.symWrite_irqEn (x : Str) : (s.symWrite x).irqEn = s.irqEn := rfl
@[simp] theorem State.symWrite_outAddr (x : Str) : (s.symWrite x).outAddr = s.outAddr := rfl
@[simp] theorem State.symWrite_outLen (x : Str) : (s.symWrite x).outLen = s.outLen := rfl
@[simp] theorem State.symWrite_codeCount (x : Str) : (s.symWrite x).codeCount = s.codeCount := rfl
@[simp] theorem State.symWrite_byteCount (x : Str) : (s.symWrite x).byteCount = s.byteCount := rfl
@[simp] theorem State.symWrite_lastCode (x : Str) : (s.symWrite x).lastCode = s.lastCode := rfl
@[simp] theorem State.symWrite_uph (x : Str) : (s.symWrite x).uph = s.uph := rfl
@[simp] theorem State.symWrite_ub1 (x : Str) : (s.symWrite x).ub1 = s.ub1 := rfl
@[simp] theorem State.symWrite_ub2 (x : Str) : (s.symWrite x).ub2 = s.ub2 := rfl
@[simp] theorem State.symWrite_cq (x : Str) : (s.symWrite x).cq = s.cq := rfl
@[simp] theorem State.symWrite_eofSeen (x : Str) : (s.symWrite x).eofSeen = s.eofSeen := rfl
@[simp] theorem State.symWrite_last (x : Str) : (s.symWrite x).last = s.last := rfl
@[simp] theorem State.symWrite_tsize (x : Str) : (s.symWrite x).tsize = s.tsize + 1#13 := rfl
@[simp] theorem State.symWrite_symtab (x : Str) : (s.symWrite x).symtab = Memory.write s.symtab s.tsize.toNat x := rfl
@[simp] theorem State.symWrite_outbuf (x : Str) : (s.symWrite x).outbuf = s.outbuf := rfl
@[simp] theorem State.symWrite_hostRdata (x : Str) : (s.symWrite x).hostRdata = s.hostRdata := rfl
@[simp] theorem State.symWrite_source (x : Str) : (s.symWrite x).source = s.source := rfl
@[simp] theorem State.symWrite_events (x : Str) : (s.symWrite x).events = s.events := rfl
@[simp] theorem State.symWrite_outCap (x : Str) : (s.symWrite x).outCap = s.outCap := rfl
@[simp] theorem State.symWrite_strCap (x : Str) : (s.symWrite x).strCap = s.strCap := rfl

/-! symInit -/

@[simp] theorem State.symInit_state : s.symInit.state = s.state := rfl
@[simp] theorem State.symInit_errCode : s.symInit.errCode = s.errCode := rfl
@[simp] theorem State.symInit_trunc : s.symInit.trunc = s.trunc := rfl
@[simp] theorem State.symInit_irqEn : s.symInit.irqEn = s.irqEn := rfl
@[simp] theorem State.symInit_outAddr : s.symInit.outAddr = s.outAddr := rfl
@[simp] theorem State.symInit_outLen : s.symInit.outLen = s.outLen := rfl
@[simp] theorem State.symInit_codeCount : s.symInit.codeCount = s.codeCount := rfl
@[simp] theorem State.symInit_byteCount : s.symInit.byteCount = s.byteCount := rfl
@[simp] theorem State.symInit_lastCode : s.symInit.lastCode = s.lastCode := rfl
@[simp] theorem State.symInit_uph : s.symInit.uph = s.uph := rfl
@[simp] theorem State.symInit_ub1 : s.symInit.ub1 = s.ub1 := rfl
@[simp] theorem State.symInit_ub2 : s.symInit.ub2 = s.ub2 := rfl
@[simp] theorem State.symInit_cq : s.symInit.cq = s.cq := rfl
@[simp] theorem State.symInit_eofSeen : s.symInit.eofSeen = s.eofSeen := rfl
@[simp] theorem State.symInit_last : s.symInit.last = s.last := rfl
@[simp] theorem State.symInit_tsize : s.symInit.tsize = 256#13 := rfl
@[simp] theorem State.symInit_symtab : s.symInit.symtab = initTable := rfl
@[simp] theorem State.symInit_outbuf : s.symInit.outbuf = s.outbuf := rfl
@[simp] theorem State.symInit_hostRdata : s.symInit.hostRdata = s.hostRdata := rfl
@[simp] theorem State.symInit_source : s.symInit.source = s.source := rfl
@[simp] theorem State.symInit_events : s.symInit.events = s.events := rfl
@[simp] theorem State.symInit_outCap : s.symInit.outCap = s.outCap := rfl
@[simp] theorem State.symInit_strCap : s.symInit.strCap = s.strCap := rfl

/-! outAppend -/

@[simp] theorem State.outAppend_state (x : Str) : (s.outAppend x).state = s.state := rfl
@[simp] theorem State.outAppend_errCode (x : Str) : (s.outAppend x).errCode = s.errCode := rfl
@[simp] theorem State.outAppend_trunc (x : Str) : (s.outAppend x).trunc = s.trunc := rfl
@[simp] theorem State.outAppend_irqEn (x : Str) : (s.outAppend x).irqEn = s.irqEn := rfl
@[simp] theorem State.outAppend_outAddr (x : Str) : (s.outAppend x).outAddr = s.outAddr := rfl
@[simp] theorem State.outAppend_outLen (x : Str) : (s.outAppend x).outLen = s.outLen + BitVec.ofNat 32 x.length := rfl
@[simp] theorem State.outAppend_codeCount (x : Str) : (s.outAppend x).codeCount = s.codeCount := rfl
@[simp] theorem State.outAppend_byteCount (x : Str) : (s.outAppend x).byteCount = s.byteCount := rfl
@[simp] theorem State.outAppend_lastCode (x : Str) : (s.outAppend x).lastCode = s.lastCode := rfl
@[simp] theorem State.outAppend_uph (x : Str) : (s.outAppend x).uph = s.uph := rfl
@[simp] theorem State.outAppend_ub1 (x : Str) : (s.outAppend x).ub1 = s.ub1 := rfl
@[simp] theorem State.outAppend_ub2 (x : Str) : (s.outAppend x).ub2 = s.ub2 := rfl
@[simp] theorem State.outAppend_cq (x : Str) : (s.outAppend x).cq = s.cq := rfl
@[simp] theorem State.outAppend_eofSeen (x : Str) : (s.outAppend x).eofSeen = s.eofSeen := rfl
@[simp] theorem State.outAppend_last (x : Str) : (s.outAppend x).last = s.last := rfl
@[simp] theorem State.outAppend_tsize (x : Str) : (s.outAppend x).tsize = s.tsize := rfl
@[simp] theorem State.outAppend_symtab (x : Str) : (s.outAppend x).symtab = s.symtab := rfl
@[simp] theorem State.outAppend_outbuf (x : Str) : (s.outAppend x).outbuf = Memory.writeStr s.outbuf s.outLen.toNat x := rfl
@[simp] theorem State.outAppend_hostRdata (x : Str) : (s.outAppend x).hostRdata = s.hostRdata := rfl
@[simp] theorem State.outAppend_source (x : Str) : (s.outAppend x).source = s.source := rfl
@[simp] theorem State.outAppend_events (x : Str) : (s.outAppend x).events = s.events := rfl
@[simp] theorem State.outAppend_outCap (x : Str) : (s.outAppend x).outCap = s.outCap := rfl
@[simp] theorem State.outAppend_strCap (x : Str) : (s.outAppend x).strCap = s.strCap := rfl

/-! raise -/

@[simp] theorem State.raise_state (e : ErrCode) : (s.raise e).state = .error := rfl
@[simp] theorem State.raise_errCode (e : ErrCode) : (s.raise e).errCode = e := rfl
@[simp] theorem State.raise_trunc (e : ErrCode) : (s.raise e).trunc = s.trunc := rfl
@[simp] theorem State.raise_irqEn (e : ErrCode) : (s.raise e).irqEn = s.irqEn := rfl
@[simp] theorem State.raise_outAddr (e : ErrCode) : (s.raise e).outAddr = s.outAddr := rfl
@[simp] theorem State.raise_outLen (e : ErrCode) : (s.raise e).outLen = s.outLen := rfl
@[simp] theorem State.raise_codeCount (e : ErrCode) : (s.raise e).codeCount = s.codeCount := rfl
@[simp] theorem State.raise_byteCount (e : ErrCode) : (s.raise e).byteCount = s.byteCount := rfl
@[simp] theorem State.raise_lastCode (e : ErrCode) : (s.raise e).lastCode = s.lastCode := rfl
@[simp] theorem State.raise_uph (e : ErrCode) : (s.raise e).uph = s.uph := rfl
@[simp] theorem State.raise_ub1 (e : ErrCode) : (s.raise e).ub1 = s.ub1 := rfl
@[simp] theorem State.raise_ub2 (e : ErrCode) : (s.raise e).ub2 = s.ub2 := rfl
@[simp] theorem State.raise_cq (e : ErrCode) : (s.raise e).cq = s.cq := rfl
@[simp] theorem State.raise_eofSeen (e : ErrCode) : (s.raise e).eofSeen = s.eofSeen := rfl
@[simp] theorem State.raise_last (e : ErrCode) : (s.raise e).last = s.last := rfl
@[simp] theorem State.raise_tsize (e : ErrCode) : (s.raise e).tsize = s.tsize := rfl
@[simp] theorem State.raise_symtab (e : ErrCode) : (s.raise e).symtab = s.symtab := rfl
@[simp] theorem State.raise_outbuf (e : ErrCode) : (s.raise e).outbuf = s.outbuf := rfl
@[simp] theorem State.raise_hostRdata (e : ErrCode) : (s.raise e).hostRdata = s.hostRdata := rfl
@[simp] theorem State.raise_source (e : ErrCode) : (s.raise e).source = s.source := rfl
@[simp] theorem State.raise_events (e : ErrCode) : (s.raise e).events = s.events := rfl
@[simp] theorem State.raise_outCap (e : ErrCode) : (s.raise e).outCap = s.outCap := rfl
@[simp] theorem State.raise_strCap (e : ErrCode) : (s.raise e).strCap = s.strCap := rfl

/-! finish -/

@[simp] theorem State.finish_state : s.finish.state = .done := rfl
@[simp] theorem State.finish_errCode : s.finish.errCode = s.errCode := rfl
@[simp] theorem State.finish_trunc : s.finish.trunc = s.trunc := rfl
@[simp] theorem State.finish_irqEn : s.finish.irqEn = s.irqEn := rfl
@[simp] theorem State.finish_outAddr : s.finish.outAddr = s.outAddr := rfl
@[simp] theorem State.finish_outLen : s.finish.outLen = s.outLen := rfl
@[simp] theorem State.finish_codeCount : s.finish.codeCount = s.codeCount := rfl
@[simp] theorem State.finish_byteCount : s.finish.byteCount = s.byteCount := rfl
@[simp] theorem State.finish_lastCode : s.finish.lastCode = s.lastCode := rfl
@[simp] theorem State.finish_uph : s.finish.uph = s.uph := rfl
@[simp] theorem State.finish_ub1 : s.finish.ub1 = s.ub1 := rfl
@[simp] theorem State.finish_ub2 : s.finish.ub2 = s.ub2 := rfl
@[simp] theorem State.finish_cq : s.finish.cq = s.cq := rfl
@[simp] theorem State.finish_eofSeen : s.finish.eofSeen = s.eofSeen := rfl
@[simp] theorem State.finish_last : s.finish.last = s.last := rfl
@[simp] theorem State.finish_tsize : s.finish.tsize = s.tsize := rfl
@[simp] theorem State.finish_symtab : s.finish.symtab = s.symtab := rfl
@[simp] theorem State.finish_outbuf : s.finish.outbuf = s.outbuf := rfl
@[simp] theorem State.finish_hostRdata : s.finish.hostRdata = s.hostRdata := rfl
@[simp] theorem State.finish_source : s.finish.source = s.source := rfl
@[simp] theorem State.finish_events : s.finish.events = s.events := rfl
@[simp] theorem State.finish_outCap : s.finish.outCap = s.outCap := rfl
@[simp] theorem State.finish_strCap : s.finish.strCap = s.strCap := rfl

/-! takeCode -/

@[simp] theorem State.takeCode_state (c : Codeword) : (s.takeCode c).state = s.state := rfl
@[simp] theorem State.takeCode_errCode (c : Codeword) : (s.takeCode c).errCode = s.errCode := rfl
@[simp] theorem State.takeCode_trunc (c : Codeword) : (s.takeCode c).trunc = s.trunc := rfl
@[simp] theorem State.takeCode_irqEn (c : Codeword) : (s.takeCode c).irqEn = s.irqEn := rfl
@[simp] theorem State.takeCode_outAddr (c : Codeword) : (s.takeCode c).outAddr = s.outAddr := rfl
@[simp] theorem State.takeCode_outLen (c : Codeword) : (s.takeCode c).outLen = s.outLen := rfl
@[simp] theorem State.takeCode_codeCount (c : Codeword) : (s.takeCode c).codeCount = s.codeCount := rfl
@[simp] theorem State.takeCode_byteCount (c : Codeword) : (s.takeCode c).byteCount = s.byteCount := rfl
@[simp] theorem State.takeCode_lastCode (c : Codeword) : (s.takeCode c).lastCode = c := rfl
@[simp] theorem State.takeCode_uph (c : Codeword) : (s.takeCode c).uph = s.uph := rfl
@[simp] theorem State.takeCode_ub1 (c : Codeword) : (s.takeCode c).ub1 = s.ub1 := rfl
@[simp] theorem State.takeCode_ub2 (c : Codeword) : (s.takeCode c).ub2 = s.ub2 := rfl
@[simp] theorem State.takeCode_cq (c : Codeword) : (s.takeCode c).cq = s.cq.tail := rfl
@[simp] theorem State.takeCode_eofSeen (c : Codeword) : (s.takeCode c).eofSeen = s.eofSeen := rfl
@[simp] theorem State.takeCode_last (c : Codeword) : (s.takeCode c).last = s.last := rfl
@[simp] theorem State.takeCode_tsize (c : Codeword) : (s.takeCode c).tsize = s.tsize := rfl
@[simp] theorem State.takeCode_symtab (c : Codeword) : (s.takeCode c).symtab = s.symtab := rfl
@[simp] theorem State.takeCode_outbuf (c : Codeword) : (s.takeCode c).outbuf = s.outbuf := rfl
@[simp] theorem State.takeCode_hostRdata (c : Codeword) : (s.takeCode c).hostRdata = s.hostRdata := rfl
@[simp] theorem State.takeCode_source (c : Codeword) : (s.takeCode c).source = s.source := rfl
@[simp] theorem State.takeCode_events (c : Codeword) : (s.takeCode c).events = s.events := rfl
@[simp] theorem State.takeCode_outCap (c : Codeword) : (s.takeCode c).outCap = s.outCap := rfl
@[simp] theorem State.takeCode_strCap (c : Codeword) : (s.takeCode c).strCap = s.strCap := rfl

/-! countCode -/

@[simp] theorem State.countCode_state : s.countCode.state = s.state := rfl
@[simp] theorem State.countCode_errCode : s.countCode.errCode = s.errCode := rfl
@[simp] theorem State.countCode_trunc : s.countCode.trunc = s.trunc := rfl
@[simp] theorem State.countCode_irqEn : s.countCode.irqEn = s.irqEn := rfl
@[simp] theorem State.countCode_outAddr : s.countCode.outAddr = s.outAddr := rfl
@[simp] theorem State.countCode_outLen : s.countCode.outLen = s.outLen := rfl
@[simp] theorem State.countCode_codeCount : s.countCode.codeCount = s.codeCount + 1#32 := rfl
@[simp] theorem State.countCode_byteCount : s.countCode.byteCount = s.byteCount := rfl
@[simp] theorem State.countCode_lastCode : s.countCode.lastCode = s.lastCode := rfl
@[simp] theorem State.countCode_uph : s.countCode.uph = s.uph := rfl
@[simp] theorem State.countCode_ub1 : s.countCode.ub1 = s.ub1 := rfl
@[simp] theorem State.countCode_ub2 : s.countCode.ub2 = s.ub2 := rfl
@[simp] theorem State.countCode_cq : s.countCode.cq = s.cq := rfl
@[simp] theorem State.countCode_eofSeen : s.countCode.eofSeen = s.eofSeen := rfl
@[simp] theorem State.countCode_last : s.countCode.last = s.last := rfl
@[simp] theorem State.countCode_tsize : s.countCode.tsize = s.tsize := rfl
@[simp] theorem State.countCode_symtab : s.countCode.symtab = s.symtab := rfl
@[simp] theorem State.countCode_outbuf : s.countCode.outbuf = s.outbuf := rfl
@[simp] theorem State.countCode_hostRdata : s.countCode.hostRdata = s.hostRdata := rfl
@[simp] theorem State.countCode_source : s.countCode.source = s.source := rfl
@[simp] theorem State.countCode_events : s.countCode.events = s.events := rfl
@[simp] theorem State.countCode_outCap : s.countCode.outCap = s.outCap := rfl
@[simp] theorem State.countCode_strCap : s.countCode.strCap = s.strCap := rfl

/-! countByte -/

@[simp] theorem State.countByte_state : s.countByte.state = s.state := rfl
@[simp] theorem State.countByte_errCode : s.countByte.errCode = s.errCode := rfl
@[simp] theorem State.countByte_trunc : s.countByte.trunc = s.trunc := rfl
@[simp] theorem State.countByte_irqEn : s.countByte.irqEn = s.irqEn := rfl
@[simp] theorem State.countByte_outAddr : s.countByte.outAddr = s.outAddr := rfl
@[simp] theorem State.countByte_outLen : s.countByte.outLen = s.outLen := rfl
@[simp] theorem State.countByte_codeCount : s.countByte.codeCount = s.codeCount := rfl
@[simp] theorem State.countByte_byteCount : s.countByte.byteCount = s.byteCount + 1#32 := rfl
@[simp] theorem State.countByte_lastCode : s.countByte.lastCode = s.lastCode := rfl
@[simp] theorem State.countByte_uph : s.countByte.uph = s.uph := rfl
@[simp] theorem State.countByte_ub1 : s.countByte.ub1 = s.ub1 := rfl
@[simp] theorem State.countByte_ub2 : s.countByte.ub2 = s.ub2 := rfl
@[simp] theorem State.countByte_cq : s.countByte.cq = s.cq := rfl
@[simp] theorem State.countByte_eofSeen : s.countByte.eofSeen = s.eofSeen := rfl
@[simp] theorem State.countByte_last : s.countByte.last = s.last := rfl
@[simp] theorem State.countByte_tsize : s.countByte.tsize = s.tsize := rfl
@[simp] theorem State.countByte_symtab : s.countByte.symtab = s.symtab := rfl
@[simp] theorem State.countByte_outbuf : s.countByte.outbuf = s.outbuf := rfl
@[simp] theorem State.countByte_hostRdata : s.countByte.hostRdata = s.hostRdata := rfl
@[simp] theorem State.countByte_source : s.countByte.source = s.source := rfl
@[simp] theorem State.countByte_events : s.countByte.events = s.events := rfl
@[simp] theorem State.countByte_outCap : s.countByte.outCap = s.outCap := rfl
@[simp] theorem State.countByte_strCap : s.countByte.strCap = s.strCap := rfl

/-! append -/

@[simp] theorem State.append_state (x : Str) : (s.append x).state = s.state := rfl
@[simp] theorem State.append_errCode (x : Str) : (s.append x).errCode = s.errCode := rfl
@[simp] theorem State.append_trunc (x : Str) : (s.append x).trunc = s.trunc := rfl
@[simp] theorem State.append_irqEn (x : Str) : (s.append x).irqEn = s.irqEn := rfl
@[simp] theorem State.append_outAddr (x : Str) : (s.append x).outAddr = s.outAddr := rfl
@[simp] theorem State.append_outLen (x : Str) : (s.append x).outLen = s.outLen + BitVec.ofNat 32 x.length := rfl
@[simp] theorem State.append_codeCount (x : Str) : (s.append x).codeCount = s.codeCount := rfl
@[simp] theorem State.append_byteCount (x : Str) : (s.append x).byteCount = s.byteCount := rfl
@[simp] theorem State.append_lastCode (x : Str) : (s.append x).lastCode = s.lastCode := rfl
@[simp] theorem State.append_uph (x : Str) : (s.append x).uph = s.uph := rfl
@[simp] theorem State.append_ub1 (x : Str) : (s.append x).ub1 = s.ub1 := rfl
@[simp] theorem State.append_ub2 (x : Str) : (s.append x).ub2 = s.ub2 := rfl
@[simp] theorem State.append_cq (x : Str) : (s.append x).cq = s.cq := rfl
@[simp] theorem State.append_eofSeen (x : Str) : (s.append x).eofSeen = s.eofSeen := rfl
@[simp] theorem State.append_last (x : Str) : (s.append x).last = x := rfl
@[simp] theorem State.append_tsize (x : Str) : (s.append x).tsize = s.tsize := rfl
@[simp] theorem State.append_symtab (x : Str) : (s.append x).symtab = s.symtab := rfl
@[simp] theorem State.append_outbuf (x : Str) : (s.append x).outbuf = Memory.writeStr s.outbuf s.outLen.toNat x := rfl
@[simp] theorem State.append_hostRdata (x : Str) : (s.append x).hostRdata = s.hostRdata := rfl
@[simp] theorem State.append_source (x : Str) : (s.append x).source = s.source := rfl
@[simp] theorem State.append_events (x : Str) : (s.append x).events = s.events := rfl
@[simp] theorem State.append_outCap (x : Str) : (s.append x).outCap = s.outCap := rfl
@[simp] theorem State.append_strCap (x : Str) : (s.append x).strCap = s.strCap := rfl

/-! hostReceives -/

@[simp] theorem State.hostReceives_state (v : Word) : (s.hostReceives v).state = s.state := rfl
@[simp] theorem State.hostReceives_errCode (v : Word) : (s.hostReceives v).errCode = s.errCode := rfl
@[simp] theorem State.hostReceives_trunc (v : Word) : (s.hostReceives v).trunc = s.trunc := rfl
@[simp] theorem State.hostReceives_irqEn (v : Word) : (s.hostReceives v).irqEn = s.irqEn := rfl
@[simp] theorem State.hostReceives_outAddr (v : Word) : (s.hostReceives v).outAddr = s.outAddr := rfl
@[simp] theorem State.hostReceives_outLen (v : Word) : (s.hostReceives v).outLen = s.outLen := rfl
@[simp] theorem State.hostReceives_codeCount (v : Word) : (s.hostReceives v).codeCount = s.codeCount := rfl
@[simp] theorem State.hostReceives_byteCount (v : Word) : (s.hostReceives v).byteCount = s.byteCount := rfl
@[simp] theorem State.hostReceives_lastCode (v : Word) : (s.hostReceives v).lastCode = s.lastCode := rfl
@[simp] theorem State.hostReceives_uph (v : Word) : (s.hostReceives v).uph = s.uph := rfl
@[simp] theorem State.hostReceives_ub1 (v : Word) : (s.hostReceives v).ub1 = s.ub1 := rfl
@[simp] theorem State.hostReceives_ub2 (v : Word) : (s.hostReceives v).ub2 = s.ub2 := rfl
@[simp] theorem State.hostReceives_cq (v : Word) : (s.hostReceives v).cq = s.cq := rfl
@[simp] theorem State.hostReceives_eofSeen (v : Word) : (s.hostReceives v).eofSeen = s.eofSeen := rfl
@[simp] theorem State.hostReceives_last (v : Word) : (s.hostReceives v).last = s.last := rfl
@[simp] theorem State.hostReceives_tsize (v : Word) : (s.hostReceives v).tsize = s.tsize := rfl
@[simp] theorem State.hostReceives_symtab (v : Word) : (s.hostReceives v).symtab = s.symtab := rfl
@[simp] theorem State.hostReceives_outbuf (v : Word) : (s.hostReceives v).outbuf = s.outbuf := rfl
@[simp] theorem State.hostReceives_hostRdata (v : Word) : (s.hostReceives v).hostRdata = v := rfl
@[simp] theorem State.hostReceives_source (v : Word) : (s.hostReceives v).source = s.source := rfl
@[simp] theorem State.hostReceives_events (v : Word) : (s.hostReceives v).events = s.events := rfl
@[simp] theorem State.hostReceives_outCap (v : Word) : (s.hostReceives v).outCap = s.outCap := rfl
@[simp] theorem State.hostReceives_strCap (v : Word) : (s.hostReceives v).strCap = s.strCap := rfl

/-! hardwareReset -/

@[simp] theorem State.hardwareReset_state : s.hardwareReset.state = .idle := rfl
@[simp] theorem State.hardwareReset_errCode : s.hardwareReset.errCode = .noError := rfl
@[simp] theorem State.hardwareReset_trunc : s.hardwareReset.trunc = false := rfl
@[simp] theorem State.hardwareReset_irqEn : s.hardwareReset.irqEn = false := rfl
@[simp] theorem State.hardwareReset_outAddr : s.hardwareReset.outAddr = 0#32 := rfl
@[simp] theorem State.hardwareReset_outLen : s.hardwareReset.outLen = 0#32 := rfl
@[simp] theorem State.hardwareReset_codeCount : s.hardwareReset.codeCount = 0#32 := rfl
@[simp] theorem State.hardwareReset_byteCount : s.hardwareReset.byteCount = 0#32 := rfl
@[simp] theorem State.hardwareReset_lastCode : s.hardwareReset.lastCode = 0#16 := rfl
@[simp] theorem State.hardwareReset_uph : s.hardwareReset.uph = .zero := rfl
@[simp] theorem State.hardwareReset_ub1 : s.hardwareReset.ub1 = 0#8 := rfl
@[simp] theorem State.hardwareReset_ub2 : s.hardwareReset.ub2 = 0#8 := rfl
@[simp] theorem State.hardwareReset_cq : s.hardwareReset.cq = [] := rfl
@[simp] theorem State.hardwareReset_eofSeen : s.hardwareReset.eofSeen = false := rfl
@[simp] theorem State.hardwareReset_last : s.hardwareReset.last = [] := rfl
@[simp] theorem State.hardwareReset_tsize : s.hardwareReset.tsize = 256#13 := rfl
@[simp] theorem State.hardwareReset_symtab : s.hardwareReset.symtab = initTable := rfl
@[simp] theorem State.hardwareReset_outbuf : s.hardwareReset.outbuf = [] := rfl
@[simp] theorem State.hardwareReset_hostRdata : s.hardwareReset.hostRdata = s.hostRdata := rfl
@[simp] theorem State.hardwareReset_source : s.hardwareReset.source = s.source := rfl
@[simp] theorem State.hardwareReset_events : s.hardwareReset.events = s.events := rfl
@[simp] theorem State.hardwareReset_outCap : s.hardwareReset.outCap = s.outCap := rfl
@[simp] theorem State.hardwareReset_strCap : s.hardwareReset.strCap = s.strCap := rfl

/-! resetIfFull -/

@[simp] theorem State.resetIfFull_state : s.resetIfFull.state = s.state := by unfold State.resetIfFull; split <;> rfl
@[simp] theorem State.resetIfFull_errCode : s.resetIfFull.errCode = s.errCode := by unfold State.resetIfFull; split <;> rfl
@[simp] theorem State.resetIfFull_trunc : s.resetIfFull.trunc = s.trunc := by unfold State.resetIfFull; split <;> rfl
@[simp] theorem State.resetIfFull_irqEn : s.resetIfFull.irqEn = s.irqEn := by unfold State.resetIfFull; split <;> rfl
@[simp] theorem State.resetIfFull_outAddr : s.resetIfFull.outAddr = s.outAddr := by unfold State.resetIfFull; split <;> rfl
@[simp] theorem State.resetIfFull_outLen : s.resetIfFull.outLen = s.outLen := by unfold State.resetIfFull; split <;> rfl
@[simp] theorem State.resetIfFull_codeCount : s.resetIfFull.codeCount = s.codeCount := by unfold State.resetIfFull; split <;> rfl
@[simp] theorem State.resetIfFull_byteCount : s.resetIfFull.byteCount = s.byteCount := by unfold State.resetIfFull; split <;> rfl
@[simp] theorem State.resetIfFull_lastCode : s.resetIfFull.lastCode = s.lastCode := by unfold State.resetIfFull; split <;> rfl
@[simp] theorem State.resetIfFull_uph : s.resetIfFull.uph = s.uph := by unfold State.resetIfFull; split <;> rfl
@[simp] theorem State.resetIfFull_ub1 : s.resetIfFull.ub1 = s.ub1 := by unfold State.resetIfFull; split <;> rfl
@[simp] theorem State.resetIfFull_ub2 : s.resetIfFull.ub2 = s.ub2 := by unfold State.resetIfFull; split <;> rfl
@[simp] theorem State.resetIfFull_cq : s.resetIfFull.cq = s.cq := by unfold State.resetIfFull; split <;> rfl
@[simp] theorem State.resetIfFull_eofSeen : s.resetIfFull.eofSeen = s.eofSeen := by unfold State.resetIfFull; split <;> rfl
@[simp] theorem State.resetIfFull_last : s.resetIfFull.last = s.last := by unfold State.resetIfFull; split <;> rfl
@[simp] theorem State.resetIfFull_outbuf : s.resetIfFull.outbuf = s.outbuf := by unfold State.resetIfFull; split <;> rfl
@[simp] theorem State.resetIfFull_hostRdata : s.resetIfFull.hostRdata = s.hostRdata := by unfold State.resetIfFull; split <;> rfl
@[simp] theorem State.resetIfFull_source : s.resetIfFull.source = s.source := by unfold State.resetIfFull; split <;> rfl
@[simp] theorem State.resetIfFull_events : s.resetIfFull.events = s.events := by unfold State.resetIfFull; split <;> rfl
@[simp] theorem State.resetIfFull_outCap : s.resetIfFull.outCap = s.outCap := by unfold State.resetIfFull; split <;> rfl
@[simp] theorem State.resetIfFull_strCap : s.resetIfFull.strCap = s.strCap := by unfold State.resetIfFull; split <;> rfl

/-! finishIfDrained -/

@[simp] theorem State.finishIfDrained_errCode : s.finishIfDrained.errCode = s.errCode := by unfold State.finishIfDrained; split <;> rfl
@[simp] theorem State.finishIfDrained_trunc : s.finishIfDrained.trunc = s.trunc := by unfold State.finishIfDrained; split <;> rfl
@[simp] theorem State.finishIfDrained_irqEn : s.finishIfDrained.irqEn = s.irqEn := by unfold State.finishIfDrained; split <;> rfl
@[simp] theorem State.finishIfDrained_outAddr : s.finishIfDrained.outAddr = s.outAddr := by unfold State.finishIfDrained; split <;> rfl
@[simp] theorem State.finishIfDrained_outLen : s.finishIfDrained.outLen = s.outLen := by unfold State.finishIfDrained; split <;> rfl
@[simp] theorem State.finishIfDrained_codeCount : s.finishIfDrained.codeCount = s.codeCount := by unfold State.finishIfDrained; split <;> rfl
@[simp] theorem State.finishIfDrained_byteCount : s.finishIfDrained.byteCount = s.byteCount := by unfold State.finishIfDrained; split <;> rfl
@[simp] theorem State.finishIfDrained_lastCode : s.finishIfDrained.lastCode = s.lastCode := by unfold State.finishIfDrained; split <;> rfl
@[simp] theorem State.finishIfDrained_uph : s.finishIfDrained.uph = s.uph := by unfold State.finishIfDrained; split <;> rfl
@[simp] theorem State.finishIfDrained_ub1 : s.finishIfDrained.ub1 = s.ub1 := by unfold State.finishIfDrained; split <;> rfl
@[simp] theorem State.finishIfDrained_ub2 : s.finishIfDrained.ub2 = s.ub2 := by unfold State.finishIfDrained; split <;> rfl
@[simp] theorem State.finishIfDrained_cq : s.finishIfDrained.cq = s.cq := by unfold State.finishIfDrained; split <;> rfl
@[simp] theorem State.finishIfDrained_eofSeen : s.finishIfDrained.eofSeen = s.eofSeen := by unfold State.finishIfDrained; split <;> rfl
@[simp] theorem State.finishIfDrained_last : s.finishIfDrained.last = s.last := by unfold State.finishIfDrained; split <;> rfl
@[simp] theorem State.finishIfDrained_tsize : s.finishIfDrained.tsize = s.tsize := by unfold State.finishIfDrained; split <;> rfl
@[simp] theorem State.finishIfDrained_symtab : s.finishIfDrained.symtab = s.symtab := by unfold State.finishIfDrained; split <;> rfl
@[simp] theorem State.finishIfDrained_outbuf : s.finishIfDrained.outbuf = s.outbuf := by unfold State.finishIfDrained; split <;> rfl
@[simp] theorem State.finishIfDrained_hostRdata : s.finishIfDrained.hostRdata = s.hostRdata := by unfold State.finishIfDrained; split <;> rfl
@[simp] theorem State.finishIfDrained_source : s.finishIfDrained.source = s.source := by unfold State.finishIfDrained; split <;> rfl
@[simp] theorem State.finishIfDrained_events : s.finishIfDrained.events = s.events := by unfold State.finishIfDrained; split <;> rfl
@[simp] theorem State.finishIfDrained_outCap : s.finishIfDrained.outCap = s.outCap := by unfold State.finishIfDrained; split <;> rfl
@[simp] theorem State.finishIfDrained_strCap : s.finishIfDrained.strCap = s.strCap := by unfold State.finishIfDrained; split <;> rfl

/-- SymRead looks at SYMTAB and TSIZE only. -/
theorem State.symRead_congr {s t : State} (h1 : t.symtab = s.symtab) (h2 : t.tsize = s.tsize) (k : Nat) :
    t.symRead k = s.symRead k := by simp [State.symRead, h1, h2]

/-- MemRead looks at OUTBUF and OUT_LEN only. -/
theorem State.memRead_congr {s t : State} (h1 : t.outbuf = s.outbuf) (h2 : t.outLen = s.outLen) (i : Nat) :
    t.memRead i = s.memRead i := by simp [State.memRead, h1, h2]

end Sys2Proof.Machine
end

