-- ==== Sys2Proof/Laws/Ops.lean ====
section
/-! SUPPORT. One lemma per shared operation: everything it can do, to be cited instead of unfolding it. -/

namespace Sys2Proof.Machine

/-- SymRead answers the present string (R61). -/
theorem State.symRead_eq_some {s : State} {k : Nat} {str : Str} :
    s.symRead k = some str ↔ k < s.tsize.toNat ∧ Memory.read s.symtab k = some str ∧ str ≠ [] := by
  unfold State.symRead
  split
  · rename_i h
    split
    · rename_i b t hr
      simp only [Option.some.injEq, h, hr, true_and]
      constructor
      · rintro rfl; simp
      · exact fun h => h.1
    · rename_i hr
      simp only [h, true_and, reduceCtorEq, false_iff, not_and, not_not]
      intro h1
      cases str with
      | nil => rfl
      | cons b t => exact absurd h1 (hr b t)
  · rename_i h
    simp [h]

/-- MemRead below OUT_LEN, at a byte that is present (R66). -/
theorem State.memRead_of_read {s : State} {i : Nat} {b : Byte} (h : i < s.outLen.toNat)
    (hb : Memory.read (α := Byte) s.outbuf i = some b) : s.memRead i = b := by
  simp [State.memRead, h, hb]

/-- MemRead at or above OUT_LEN (R66). -/
theorem State.memRead_of_ge {s : State} {i : Nat} (h : s.outLen.toNat ≤ i) : s.memRead i = 0#8 := by
  simp [State.memRead, Nat.not_lt.2 h]

/-- MemRead below two lengths depends on the byte alone. -/
theorem State.memRead_eq_of_read {s t : State} {i : Nat} (hs : i < s.outLen.toNat)
    (ht : i < t.outLen.toNat)
    (h : Memory.read (α := Byte) t.outbuf i = Memory.read (α := Byte) s.outbuf i) :
    t.memRead i = s.memRead i := by simp [State.memRead, hs, ht, h]

/-- OutAppend's bytes (R65). -/
theorem appendedAt_writeStr (m : Memory Byte) (a : Nat) (str : Str) :
    AppendedAt m (Memory.writeStr m a str) a str := fun b => Memory.read_writeStr str m a b

/-- OUT_LEN after an append that fits a legal OUT_CAP does not wrap (R192). -/
theorem outLen_add {a : Word} {n cap : Nat} (h : a.toNat + n ≤ cap) (hc : cap ≤ 4294967295) :
    (a + BitVec.ofNat 32 n).toNat = a.toNat + n := by
  simp only [BitVec.toNat_add, BitVec.toNat_ofNat]
  omega

/-- SymWrite followed by the table reset at capacity (R62, R156). -/
theorem State.insertedAt_symWrite (s : State) (new : Str) :
    InsertedAt s (s.symWrite new).resetIfFull new := by
  unfold InsertedAt State.resetIfFull
  refine ⟨fun h => ?_, fun h => ?_⟩
  · have : ¬ (s.symWrite new).tsize.toNat = Config.capacity := by
      simp only [State.symWrite_tsize, Config.capacity, BitVec.toNat_add]
      intro h2
      apply h
      apply BitVec.eq_of_toNat_eq
      have := s.tsize.isLt
      simp at h2 ⊢
      omega
    rw [if_neg this]
    exact ⟨rfl, fun k => Memory.read_write _ _ _ _⟩
  · have : (s.symWrite new).tsize.toNat = Config.capacity := by
      simp [h, Config.capacity]
    rw [if_pos this]
    exact ⟨rfl, fun k => read_initTable k⟩

/-- A table write and reset keep the canonical form. -/
theorem State.wf_symWrite (s : State) (new : Str) (h : Memory.wf s.symtab = true) :
    Memory.wf ((s.symWrite new).resetIfFull).symtab = true := by
  unfold State.resetIfFull
  split
  · exact wf_initTable
  · exact Memory.wf_write _ _ _ h

/-- STATE after a successful decode step (R151, R193). -/
@[simp] theorem State.finishIfDrained_state (s : State) :
    s.finishIfDrained.state = if s.cq = [] ∧ s.eofSeen = true then .done else s.state := by
  unfold State.finishIfDrained
  split <;> rfl

/-- The append and its bookkeeping, field by field (R151, R192, R193). -/
theorem State.commit_eq (s : State) (result : Str) :
    s.commit result =
      { s with
        outbuf := Memory.writeStr s.outbuf s.outLen.toNat result
        outLen := s.outLen + BitVec.ofNat 32 result.length
        last := result
        codeCount := s.codeCount + 1#32
        state := if s.cq = [] ∧ s.eofSeen = true then .done else s.state } := by
  unfold State.commit State.finishIfDrained
  split <;> rename_i h
  · rw [if_pos (show s.cq = [] ∧ s.eofSeen = true from h)]; rfl
  · rw [if_neg (show ¬ (s.cq = [] ∧ s.eofSeen = true) from h)]; rfl

/-- What a decode step with an insertion can do: one of the two overflow errors, or the commit (R151, R253). -/
theorem State.insertDeliver_cases (s : State) (new result : Str) :
    (s.strCap < new.length ∧ s.insertDeliver new result = s.raise .strOvf) ∨
    (new.length ≤ s.strCap ∧ s.outCap < s.outLen.toNat + result.length ∧
      s.insertDeliver new result = s.raise .outOvf) ∨
    (new.length ≤ s.strCap ∧ s.outLen.toNat + result.length ≤ s.outCap ∧
      s.insertDeliver new result = ((s.symWrite new).resetIfFull).commit result) := by
  unfold State.insertDeliver
  by_cases h1 : s.strTooLong new
  · exact .inl ⟨h1, if_pos h1⟩
  · rw [if_neg h1]
    by_cases h2 : s.outTooLong result
    · exact .inr (.inl ⟨Nat.not_lt.1 h1, h2, if_pos h2⟩)
    · exact .inr (.inr ⟨Nat.not_lt.1 h1, Nat.not_lt.1 h2, if_neg h2⟩)

/-- What a decode step without an insertion can do (R151). -/
theorem State.deliver_cases (s : State) (result : Str) :
    (s.outCap < s.outLen.toNat + result.length ∧ s.deliver result = s.raise .outOvf) ∨
    (s.outLen.toNat + result.length ≤ s.outCap ∧ s.deliver result = s.commit result) := by
  unfold State.deliver
  by_cases h : s.outTooLong result
  · exact .inl ⟨h, if_pos h⟩
  · exact .inr ⟨Nat.not_lt.1 h, if_neg h⟩

/-- START during a run is ignored (R213). -/
theorem State.start_of_run {s : State} (h : s.state = .run) : s.start = s := by
  simp [State.start, h]

/-- START with no run in progress, field by field (R213). -/
theorem State.start_of_not_run {s : State} (h : s.state ≠ .run) :
    s.start =
      { s with
        state := .run, errCode := .noError, trunc := false
        outLen := 0#32, codeCount := 0#32, byteCount := 0#32, lastCode := 0#16
        uph := .zero, ub1 := 0#8, ub2 := 0#8, cq := [], eofSeen := false, last := []
        symtab := initTable, tsize := 256#13 } := by
  unfold State.start
  rw [if_neg h]
  rfl

end Sys2Proof.Machine
end

