-- ==== Sys2Proof/Laws/Exec.lean ====
section
/-! SUPPORT. What each engine operation answers where its row's condition holds, and that it answers nothing else but a refusal elsewhere (spec/40_unpacker.md, spec/41_dictionary.md). -/

namespace Sys2Proof.Machine

/-- UHold1 where it is enabled (R121). -/
theorem execUHold1_eq {s : State} (b : Byte) (h : s.inReady) (hp : s.uph = .zero) :
    execUHold1 b s = .next { s.countByte with ub1 := b, uph := .one } := if_pos ⟨h, hp⟩

/-- UHold2 where it is enabled (R122). -/
theorem execUHold2_eq {s : State} (b : Byte) (h : s.inReady) (hp : s.uph = .one) :
    execUHold2 b s = .next { s.countByte with ub2 := b, uph := .two } := if_pos ⟨h, hp⟩

/-- UFull where it is enabled (R123). -/
theorem execUFull_eq {s : State} (b3 : Byte) (h : s.inReady) (hp : s.uph = .two) :
    execUFull b3 s = .next { s.countByte with cq := [codeA s.ub1 s.ub2, codeB s.ub2 b3], uph := .zero } := if_pos ⟨h, hp⟩

/-- UEnd0 where it is enabled (R125). -/
theorem execUEnd0_eq {s : State} (data : Byte) (h : s.inReady) (hp : s.uph = .zero) :
    execUEnd0 data s = .next s.finish := if_pos ⟨h, hp⟩

/-- UEnd1 where it is enabled (R126). -/
theorem execUEnd1_eq {s : State} (data : Byte) (h : s.inReady) (hp : s.uph = .one) :
    execUEnd1 data s = .next (State.finish { s with trunc := true, uph := .zero }) := if_pos ⟨h, hp⟩

/-- UEnd2 where it is enabled (R127). -/
theorem execUEnd2_eq {s : State} (data : Byte) (h : s.inReady) (hp : s.uph = .two) :
    execUEnd2 data s = .next { s with cq := [codeT s.ub1 s.ub2], uph := .zero, eofSeen := true } := if_pos ⟨h, hp⟩

/-- D_FIRST where it is enabled (R152). -/
theorem execDFirst_eq {s : State} {c : Codeword} (h : s.decodeReady c) (h1 : s.tsize.toNat = 256)
    (h2 : s.last = []) (h3 : c.toNat < 256) :
    execDFirst c s =
      match s.symRead c.toNat with
      | some result => .next ((s.takeCode c).deliver result)
      | none => .fault .symReadAbsent := if_pos ⟨h, h1, h2, h3⟩

/-- D_HIT where it is enabled (R153). -/
theorem execDHit_eq {s : State} {c : Codeword} (h : s.decodeReady c) (h1 : s.last ≠ [])
    (h2 : c.toNat < s.tsize.toNat) :
    execDHit c s =
      match s.symRead c.toNat with
      | some entry => .next ((s.takeCode c).insertDeliver (s.last ++ entry.take 1) entry)
      | none => .fault .symReadAbsent := if_pos ⟨h, h1, h2⟩

/-- D_KWKWK where it is enabled (R154). -/
theorem execDKwkwk_eq {s : State} {c : Codeword} (h : s.decodeReady c) (h1 : s.last ≠ [])
    (h2 : c.toNat = s.tsize.toNat) :
    execDKwkwk c s =
      .next ((s.takeCode c).insertDeliver (s.last ++ s.last.take 1) (s.last ++ s.last.take 1)) :=
  if_pos ⟨h, h1, h2⟩

/-- D_CORRUPT_FIRST where it is enabled (R155). -/
theorem execDCorruptFirst_eq {s : State} {c : Codeword} (h : s.decodeReady c) (h1 : s.tsize.toNat = 256)
    (h2 : s.last = []) (h3 : 256 ≤ c.toNat) :
    execDCorruptFirst c s = .next ((s.takeCode c).raise .corrupt) := if_pos ⟨h, h1, h2, h3⟩

/-- D_CORRUPT where it is enabled (R155). -/
theorem execDCorrupt_eq {s : State} {c : Codeword} (h : s.decodeReady c) (h1 : s.last ≠ [])
    (h2 : s.tsize.toNat < c.toNat) :
    execDCorrupt c s = .next ((s.takeCode c).raise .corrupt) := if_pos ⟨h, h1, h2⟩

/-- The length of a new string (R159): one more than LAST's. -/
theorem length_new {last entry : Str} (h : entry ≠ []) : (last ++ entry.take 1).length = last.length + 1 := by
  cases entry with
  | nil => exact absurd rfl h
  | cons b t => simp

/-- A WR CTRL (R212). -/
theorem execWrCtrl_eq (v : Word) (s : State) :
    execWrCtrl v s =
      .next (if v.getLsbD 0 then State.start { s with irqEn := v.getLsbD 1 }
             else { s with irqEn := v.getLsbD 1 }) := by
  unfold execWrCtrl
  split <;> rfl

end Sys2Proof.Machine
end

