-- ==== Sys2Proof/Laws/Inv.lean ====
section
/-! SUPPORT. How the shared operations treat the parts of the invariant (spec/10_state.md R38). -/

namespace Sys2Proof.Machine

/-- The initial table meets R38's items about SYMTAB. -/
theorem tableOk_init (s : State) (h : 3841 ≤ s.strCap) (h1 : s.symtab = initTable)
    (h2 : s.tsize = 256#13) : s.TableOk := by
  refine ⟨by rw [h1]; exact wf_initTable, by simp [h2], by simp [h2], fun i hi => ?_, fun k hk => ?_, fun k hk => ?_⟩
  · rw [h1, read_initTable, if_pos hi]
  · rw [h1, read_initTable]
    rw [h2] at hk
    have hk : k < 256 := hk
    rw [if_pos hk]
    exact ⟨_, rfl, by simp, by simp; omega⟩
  · rw [h2] at hk
    have hk : 256 ≤ k := hk
    rw [h1, read_initTable, if_neg (by omega)]

/-- A START that finds no run establishes the invariants, whatever the run before left, as long as the parameters are legal and OUTBUF is in form (R213). -/
theorem inv_start {s : State} (hp : s.ParamsOk) (ho : Memory.wf (α := Byte) s.outbuf = true)
    (hc : ∀ i, s.outCap ≤ i → Memory.read (α := Byte) s.outbuf i = none)
    (h : s.state ≠ .run) : s.start.Inv := by
  rw [State.start_of_not_run h]
  refine ⟨hp, tableOk_init _ hp.2 rfl rfl, ?_, ?_, ?_, ?_⟩
  · simp [State.LastOk]
  · simp [State.QueueOk]
  · simpa [State.OutputOk] using ⟨ho, hc⟩
  · simp [State.FlagsOk]

/-- An append that fits keeps R38 item 7 and OUTBUF's form (R65, R192). -/
theorem outputOk_append {s t : State} (r : Str) (h : s.OutputOk) (hp : s.outCap ≤ 4294967295)
    (ho : s.outLen.toNat + r.length ≤ s.outCap)
    (h1 : t.outbuf = Memory.writeStr s.outbuf s.outLen.toNat r)
    (h2 : t.outLen = s.outLen + BitVec.ofNat 32 r.length) (h3 : t.outCap = s.outCap) : t.OutputOk := by
  obtain ⟨hw, hl, hr, hn⟩ := h
  have hlen : t.outLen.toNat = s.outLen.toNat + r.length := by rw [h2, outLen_add ho hp]
  refine ⟨by rw [h1]; exact Memory.wf_writeStr _ _ _ hw, by rw [hlen, h3]; exact ho, fun i hi => ?_, fun i hi => ?_⟩
  · rw [h1, Memory.read_writeStr]
    rw [hlen] at hi
    split
    · rename_i h
      rw [List.getElem?_eq_getElem (by omega)]
      exact ⟨_, rfl⟩
    · exact hr i (by omega)
  · rw [h1, Memory.read_writeStr, if_neg (by omega)]
    rw [h3] at hi
    exact hn i hi

/-- An insertion, with the table reset it may cause, keeps R38's items about SYMTAB (R62, R156). -/
theorem tableOk_insert {s : State} {new : Str} (h : s.TableOk) (h1 : 1 ≤ new.length)
    (h2 : new.length ≤ s.strCap) (h3 : 3841 ≤ s.strCap) :
    ((s.symWrite new).resetIfFull).TableOk := by
  obtain ⟨hw, hlo, hhi, hini, hpr, hab⟩ := h
  obtain ⟨hi1, hi2⟩ := s.insertedAt_symWrite new
  by_cases he : s.tsize = 4095#13
  · have : (s.symWrite new).tsize.toNat = Config.capacity := by simp [he, Config.capacity]
    rw [State.resetIfFull, if_pos this]
    exact tableOk_init _ h3 rfl rfl
  · obtain ⟨ht, hrd⟩ := hi1 he
    have hn : s.tsize.toNat ≠ 4095 := fun h => he (BitVec.eq_of_toNat_eq h)
    have htn : (s.symWrite new).resetIfFull.tsize.toNat = s.tsize.toNat + 1 := by
      rw [ht, BitVec.toNat_add]; simp; omega
    refine ⟨s.wf_symWrite new hw, by omega, by omega, fun i hi => ?_, fun k hk => ?_, fun k hk => ?_⟩
    · rw [hrd, if_neg (by omega)]; exact hini i hi
    · rw [hrd]
      simp only [State.resetIfFull_strCap, State.symWrite_strCap]
      split
      · exact ⟨_, rfl, h1, h2⟩
      · exact hpr k (by omega)
    · rw [hrd, if_neg (by omega)]; exact hab k (by omega)

/-- CODE_COUNT does not wrap within a run, because it never exceeds OUT_LEN (R28, R38 item 4). -/
theorem codeCount_succ {s : State} (h : s.codeCount.toNat ≤ s.outLen.toNat) (n : Nat) (hn : 1 ≤ n)
    (ho : s.outLen.toNat + n ≤ s.outCap) (hp : s.outCap ≤ 4294967295) :
    (s.codeCount + 1#32).toNat = s.codeCount.toNat + 1 := by
  rw [BitVec.toNat_add]; simp; omega

/-- Both memories are in canonical form after hardware reset. -/
theorem wf_reset (outCap strCap : Nat) :
    Memory.wf (State.resetWith outCap strCap).symtab = true ∧
    Memory.wf (α := Byte) (State.resetWith outCap strCap).outbuf = true := ⟨wf_initTable, rfl⟩

end Sys2Proof.Machine
end

