-- ==== Sys2Proof/Laws/Operands.lean ====
section
/-! SUPPORT. The operand forms as numbers. -/

namespace Sys2Proof.Machine

/-- code_A as a number (R97). -/
theorem codeA_toNat (b1 b2 : Byte) : (codeA b1 b2).toNat = b1.toNat * 16 + b2.toNat / 16 := by
  have h1 := b1.isLt
  have h2 := b2.isLt
  have : b2.toNat / 16 < 2^4 := by omega
  have key := Nat.shiftLeft_add_eq_or_of_lt this b1.toNat
  have e : b1.toNat <<< 4 = b1.toNat * 16 := by rw [Nat.shiftLeft_eq]
  have e2 : b2.toNat >>> 4 = b2.toNat / 16 := by rw [Nat.shiftRight_eq_div_pow]
  simp only [codeA, BitVec.toNat_or, BitVec.toNat_shiftLeft, BitVec.toNat_setWidth, BitVec.toNat_ushiftRight]
  rw [Nat.mod_eq_of_lt (by omega : b1.toNat < 2^16), Nat.mod_eq_of_lt (by omega : b2.toNat < 2^16), e2,
    Nat.mod_eq_of_lt (by omega : b1.toNat <<< 4 < 2^16), ← key, e]

/-- code_B as a number (R97). -/
theorem codeB_toNat (b2 b3 : Byte) : (codeB b2 b3).toNat = b2.toNat % 16 * 256 + b3.toNat := by
  have h2 := b2.isLt
  have h3 := b3.isLt
  have : b3.toNat < 2^8 := by omega
  have key := Nat.shiftLeft_add_eq_or_of_lt this (b2.toNat % 16)
  have e : (b2.toNat % 16) <<< 8 = (b2.toNat % 16) * 256 := by rw [Nat.shiftLeft_eq]
  have e2 : b2.toNat &&& 15 = b2.toNat % 16 := Nat.and_two_pow_sub_one_eq_mod b2.toNat 4
  simp only [codeB, BitVec.toNat_or, BitVec.toNat_shiftLeft, BitVec.toNat_setWidth, BitVec.toNat_and]
  have e3 : BitVec.toNat 15#8 = 15 := rfl
  rw [e3, e2, Nat.mod_eq_of_lt (by omega : b2.toNat % 16 < 2^16), Nat.mod_eq_of_lt (by omega : b3.toNat < 2^16),
    Nat.mod_eq_of_lt (by omega : (b2.toNat % 16) <<< 8 < 2^16), ← key, e]

/-- code_T as a number (R97). -/
theorem codeT_toNat (b1 b2 : Byte) : (codeT b1 b2).toNat = b1.toNat * 256 + b2.toNat := by
  have h1 := b1.isLt
  have h2 := b2.isLt
  have key := Nat.shiftLeft_add_eq_or_of_lt (by omega : b2.toNat < 2^8) b1.toNat
  have e : b1.toNat <<< 8 = b1.toNat * 256 := by rw [Nat.shiftLeft_eq]
  simp only [codeT, BitVec.toNat_or, BitVec.toNat_shiftLeft, BitVec.toNat_setWidth]
  rw [Nat.mod_eq_of_lt (by omega : b1.toNat < 2^16), Nat.mod_eq_of_lt (by omega : b2.toNat < 2^16),
    Nat.mod_eq_of_lt (by omega : b1.toNat <<< 8 < 2^16), ← key, e]

/-- The first packed byte as a number (R99). -/
theorem packB1_toNat (x : Codeword) : (packB1 x).toNat = x.toNat / 16 % 256 := by
  simp [packB1, Nat.shiftRight_eq_div_pow]
/-- The third packed byte as a number (R99). -/
theorem packB3_toNat (x : Codeword) : (packB3 x).toNat = x.toNat % 256 := by
  have e2 : x.toNat &&& 255 = x.toNat % 256 := Nat.and_two_pow_sub_one_eq_mod x.toNat 8
  have e3 : BitVec.toNat 255#16 = 255 := rfl
  simp only [packB3, BitVec.toNat_setWidth, BitVec.toNat_and, e3, e2]
  omega
/-- The second packed byte as a number (R99). -/
theorem packB2_toNat (x y : Codeword) (h : y.toNat ≤ 0xFFF) : (packB2 x y).toNat = x.toNat % 16 * 16 + y.toNat / 256 := by
  have e2 : x.toNat &&& 15 = x.toNat % 16 := Nat.and_two_pow_sub_one_eq_mod x.toNat 4
  have key := Nat.shiftLeft_add_eq_or_of_lt (by omega : y.toNat / 256 < 2^4) (x.toNat % 16)
  have e : (x.toNat % 16) <<< 4 = (x.toNat % 16) * 16 := by rw [Nat.shiftLeft_eq]
  have e3 : BitVec.toNat 15#16 = 15 := rfl
  simp only [packB2, BitVec.toNat_or, BitVec.toNat_shiftLeft, BitVec.toNat_setWidth, BitVec.toNat_and, BitVec.toNat_ushiftRight, e3, e2, Nat.shiftRight_eq_div_pow]
  rw [Nat.mod_eq_of_lt (by omega : (x.toNat % 16) <<< 4 < 2^16), ← key, e]
  omega

/-- code_A by shifts of numbers (R97). -/
theorem codeA_shifts (b1 b2 : Byte) : (codeA b1 b2).toNat = (b1.toNat <<< 4) ||| (b2.toNat >>> 4) := by
  have h1 := b1.isLt
  have h2 := b2.isLt
  simp only [codeA, BitVec.toNat_or, BitVec.toNat_shiftLeft, BitVec.toNat_ushiftRight, BitVec.toNat_setWidth]
  rw [Nat.shiftLeft_eq, Nat.shiftLeft_eq, Nat.mod_eq_of_lt (by omega), Nat.mod_eq_of_lt (by omega),Nat.mod_eq_of_lt (by omega)]

/-- code_B by shifts of numbers (R97). -/
theorem codeB_shifts (b2 b3 : Byte) : (codeB b2 b3).toNat = ((b2.toNat &&& 0x0F) <<< 8) ||| b3.toNat := by
  have h1 := b3.isLt
  have h2 := b2.isLt
  have h3 : b2.toNat &&& 15 ≤ 15 := Nat.and_le_right
  simp only [codeB, BitVec.toNat_or, BitVec.toNat_shiftLeft, BitVec.toNat_setWidth, BitVec.toNat_and, BitVec.toNat_ofNat]
  rw [Nat.shiftLeft_eq, Nat.shiftLeft_eq]
  have e : 15 % 2^8 = 15 := rfl
  rw [e, Nat.mod_eq_of_lt (a := b2.toNat &&& 15) (by omega), Nat.mod_eq_of_lt (by omega),Nat.mod_eq_of_lt (by omega)]

/-- code_T by shifts of numbers (R97). -/
theorem codeT_shifts (b1 b2 : Byte) : (codeT b1 b2).toNat = (b1.toNat <<< 8) ||| b2.toNat := by
  have h1 := b1.isLt
  have h2 := b2.isLt
  simp only [codeT, BitVec.toNat_or, BitVec.toNat_shiftLeft, BitVec.toNat_setWidth]
  rw [Nat.shiftLeft_eq, Nat.shiftLeft_eq, Nat.mod_eq_of_lt (by omega), Nat.mod_eq_of_lt (by omega),Nat.mod_eq_of_lt (by omega)]

end Sys2Proof.Machine
end

