-- ==== Sys2Proof/Laws/PerInstr.lean ====
section
/-! SUPPORT. The row of spec/opcode_table.json that each operation's encoding falls into: every operand value encodes to a word whose fixed bits are the row's `match` under its `mask`. -/

namespace Sys2Proof.Laws.Row

open Sys2Proof

/-- A token with the fixed bits of a TOKEN9 row (R90). -/
def FitsToken (mask value : Token) : InWord → Prop
  | .token t => t &&& mask = value
  | _ => False

/-- A codeword with the fixed bits of a CODEWORD16 row (R100). -/
def FitsCode (mask value : Codeword) : InWord → Prop
  | .code c => c &&& mask = value
  | _ => False

/-- A host command with the fixed bits of a HOSTCMD37 row (R101). -/
def FitsHost (mask value : HostCmd) : InWord → Prop
  | .host h => h &&& mask = value
  | _ => False

/-- The operation's row, or rows, as the table writes them. -/
def Fits : Instr → InWord → Prop
  | .uHold1 _ | .uHold2 _ | .uFull _ => FitsToken 0x100#9 0x000#9
  | .uEnd0 _ | .uEnd1 _ | .uEnd2 _ => FitsToken 0x100#9 0x100#9
  | .dFirst _ => FitsCode 0xFF00#16 0x0000#16
  | .dCorruptFirst _ | .dHit _ | .dKwkwk _ | .dCorrupt _ => FitsCode 0#16 0#16
  | .tableReset | .dAppend _ => fun _ => False
  | .rdCtrl _ => FitsHost 0x1F00000000#37 0x0000000000#37
  | .wrCtrl _ => FitsHost 0x1F00000000#37 0x1000000000#37
  | .rdStatus _ => FitsHost 0x1F00000000#37 0x0100000000#37
  | .wrStatus _ => FitsHost 0x1F00000000#37 0x1100000000#37
  | .rdOutLen _ => FitsHost 0x1F00000000#37 0x0200000000#37
  | .wrOutLen _ => FitsHost 0x1F00000000#37 0x1200000000#37
  | .rdOutAddr _ => FitsHost 0x1F00000000#37 0x0300000000#37
  | .wrOutAddr _ => FitsHost 0x1F00000000#37 0x1300000000#37
  | .rdOutData _ => FitsHost 0x1F00000000#37 0x0400000000#37
  | .wrOutData _ => FitsHost 0x1F00000000#37 0x1400000000#37
  | .rdTableSize _ => FitsHost 0x1F00000000#37 0x0500000000#37
  | .wrTableSize _ => FitsHost 0x1F00000000#37 0x1500000000#37
  | .rdCodeCount _ => FitsHost 0x1F00000000#37 0x0600000000#37
  | .wrCodeCount _ => FitsHost 0x1F00000000#37 0x1600000000#37
  | .rdLastCode _ => FitsHost 0x1F00000000#37 0x0700000000#37
  | .wrLastCode _ => FitsHost 0x1F00000000#37 0x1700000000#37
  | .rdByteCount _ => FitsHost 0x1F00000000#37 0x0800000000#37
  | .wrByteCount _ => FitsHost 0x1F00000000#37 0x1800000000#37
  | .rdRsvd _ _ => fun w =>
    FitsHost 0x1F00000000#37 0x0900000000#37 w ∨ FitsHost 0x1E00000000#37 0x0A00000000#37 w ∨
      FitsHost 0x1C00000000#37 0x0C00000000#37 w
  | .wrRsvd _ _ => fun w =>
    FitsHost 0x1F00000000#37 0x1900000000#37 w ∨ FitsHost 0x1E00000000#37 0x1A00000000#37 w ∨
      FitsHost 0x1C00000000#37 0x1C00000000#37 w

/-- Whatever a well-formed operation encodes to lies in its own row of the table. -/
def Statement (i : Instr) : Prop :=
  wellFormed i = true → ∀ w, encode i = some w → Fits i w

/-- A mask over WE and IDX keeps nothing of WDATA. -/
theorem mkCmd_and (we : Bool) (idx : RegIdx) (v : Word) (m : BitVec 5) :
    mkCmd we idx v &&& (m ++ 0#32 : HostCmd) = ((BitVec.ofBool we ++ idx : BitVec 5) &&& m) ++ 0#32 := by
  show (BitVec.ofBool we ++ idx : BitVec 5) ++ v &&& m ++ 0#32 = _
  rw [BitVec.and_append]
  simp

theorem fitsHost_mkCmd {we : Bool} {idx : RegIdx} {v : Word} {mask value : HostCmd} {m r : BitVec 5}
    (hm : mask = (m ++ 0#32 : HostCmd)) (hv : value = (r ++ 0#32 : HostCmd))
    (h : (BitVec.ofBool we ++ idx : BitVec 5) &&& m = r) : FitsHost mask value (.host (mkCmd we idx v)) := by
  show mkCmd we idx v &&& mask = value
  rw [hm, mkCmd_and, h, hv]

theorem uHold1 (b : Byte) : Statement (.uHold1 b) := by
  rintro - _ ⟨⟩
  show byteToken b &&& 0x100#9 = 0x000#9
  revert b; decide

theorem uHold2 (b : Byte) : Statement (.uHold2 b) := by
  rintro - _ ⟨⟩
  show byteToken b &&& 0x100#9 = 0x000#9
  revert b; decide

theorem uFull (b : Byte) : Statement (.uFull b) := by
  rintro - _ ⟨⟩
  show byteToken b &&& 0x100#9 = 0x000#9
  revert b; decide

theorem uEnd0 (b : Byte) : Statement (.uEnd0 b) := by
  rintro - _ ⟨⟩
  show endToken b &&& 0x100#9 = 0x100#9
  revert b; decide

theorem uEnd1 (b : Byte) : Statement (.uEnd1 b) := by
  rintro - _ ⟨⟩
  show endToken b &&& 0x100#9 = 0x100#9
  revert b; decide

theorem uEnd2 (b : Byte) : Statement (.uEnd2 b) := by
  rintro - _ ⟨⟩
  show endToken b &&& 0x100#9 = 0x100#9
  revert b; decide

theorem dFirst (c : Codeword) : Statement (.dFirst c) := by
  rintro h _ ⟨⟩
  have h : c.toNat < 256 := by simpa [wellFormed] using h
  show c &&& 0xFF00#16 = 0x0000#16
  obtain ⟨n, hn⟩ : ∃ n : Byte, c = 0#8 ++ n := ⟨c.setWidth 8, by
    apply BitVec.eq_of_toNat_eq
    rw [BitVec.toNat_append]
    simp
    omega⟩
  subst hn
  show 0#8 ++ n &&& 0xFF#8 ++ 0#8 = (0#8 ++ 0#8 : BitVec 16)
  rw [BitVec.and_append]
  simp

theorem dCorruptFirst (c : Codeword) : Statement (.dCorruptFirst c) := by
  rintro - _ ⟨⟩
  exact BitVec.and_zero

theorem dHit (c : Codeword) : Statement (.dHit c) := by
  rintro - _ ⟨⟩
  exact BitVec.and_zero

theorem dKwkwk (c : Codeword) : Statement (.dKwkwk c) := by
  rintro - _ ⟨⟩
  exact BitVec.and_zero

theorem dCorrupt (c : Codeword) : Statement (.dCorrupt c) := by
  rintro - _ ⟨⟩
  exact BitVec.and_zero

theorem tableReset : Statement .tableReset := by rintro - _ ⟨⟩

theorem dAppend (result : Str) : Statement (.dAppend result) := by rintro - _ ⟨⟩

theorem rdCtrl (v : Word) : Statement (.rdCtrl v) := by
  rintro - _ ⟨⟩
  exact fitsHost_mkCmd (m := 0x1F#5) (r := 0x00#5) (by decide) (by decide) (by decide)

theorem wrCtrl (v : Word) : Statement (.wrCtrl v) := by
  rintro - _ ⟨⟩
  exact fitsHost_mkCmd (m := 0x1F#5) (r := 0x10#5) (by decide) (by decide) (by decide)

theorem rdStatus (v : Word) : Statement (.rdStatus v) := by
  rintro - _ ⟨⟩
  exact fitsHost_mkCmd (m := 0x1F#5) (r := 0x01#5) (by decide) (by decide) (by decide)

theorem wrStatus (v : Word) : Statement (.wrStatus v) := by
  rintro - _ ⟨⟩
  exact fitsHost_mkCmd (m := 0x1F#5) (r := 0x11#5) (by decide) (by decide) (by decide)

theorem rdOutLen (v : Word) : Statement (.rdOutLen v) := by
  rintro - _ ⟨⟩
  exact fitsHost_mkCmd (m := 0x1F#5) (r := 0x02#5) (by decide) (by decide) (by decide)

theorem wrOutLen (v : Word) : Statement (.wrOutLen v) := by
  rintro - _ ⟨⟩
  exact fitsHost_mkCmd (m := 0x1F#5) (r := 0x12#5) (by decide) (by decide) (by decide)

theorem rdOutAddr (v : Word) : Statement (.rdOutAddr v) := by
  rintro - _ ⟨⟩
  exact fitsHost_mkCmd (m := 0x1F#5) (r := 0x03#5) (by decide) (by decide) (by decide)

theorem wrOutAddr (v : Word) : Statement (.wrOutAddr v) := by
  rintro - _ ⟨⟩
  exact fitsHost_mkCmd (m := 0x1F#5) (r := 0x13#5) (by decide) (by decide) (by decide)

theorem rdOutData (v : Word) : Statement (.rdOutData v) := by
  rintro - _ ⟨⟩
  exact fitsHost_mkCmd (m := 0x1F#5) (r := 0x04#5) (by decide) (by decide) (by decide)

theorem wrOutData (v : Word) : Statement (.wrOutData v) := by
  rintro - _ ⟨⟩
  exact fitsHost_mkCmd (m := 0x1F#5) (r := 0x14#5) (by decide) (by decide) (by decide)

theorem rdTableSize (v : Word) : Statement (.rdTableSize v) := by
  rintro - _ ⟨⟩
  exact fitsHost_mkCmd (m := 0x1F#5) (r := 0x05#5) (by decide) (by decide) (by decide)

theorem wrTableSize (v : Word) : Statement (.wrTableSize v) := by
  rintro - _ ⟨⟩
  exact fitsHost_mkCmd (m := 0x1F#5) (r := 0x15#5) (by decide) (by decide) (by decide)

theorem rdCodeCount (v : Word) : Statement (.rdCodeCount v) := by
  rintro - _ ⟨⟩
  exact fitsHost_mkCmd (m := 0x1F#5) (r := 0x06#5) (by decide) (by decide) (by decide)

theorem wrCodeCount (v : Word) : Statement (.wrCodeCount v) := by
  rintro - _ ⟨⟩
  exact fitsHost_mkCmd (m := 0x1F#5) (r := 0x16#5) (by decide) (by decide) (by decide)

theorem rdLastCode (v : Word) : Statement (.rdLastCode v) := by
  rintro - _ ⟨⟩
  exact fitsHost_mkCmd (m := 0x1F#5) (r := 0x07#5) (by decide) (by decide) (by decide)

theorem wrLastCode (v : Word) : Statement (.wrLastCode v) := by
  rintro - _ ⟨⟩
  exact fitsHost_mkCmd (m := 0x1F#5) (r := 0x17#5) (by decide) (by decide) (by decide)

theorem rdByteCount (v : Word) : Statement (.rdByteCount v) := by
  rintro - _ ⟨⟩
  exact fitsHost_mkCmd (m := 0x1F#5) (r := 0x08#5) (by decide) (by decide) (by decide)

theorem wrByteCount (v : Word) : Statement (.wrByteCount v) := by
  rintro - _ ⟨⟩
  exact fitsHost_mkCmd (m := 0x1F#5) (r := 0x18#5) (by decide) (by decide) (by decide)

/-- The three rows of the reserved indices (R53). -/
theorem rsvd_cases (i : RegIdx) : 9 ≤ i.toNat → i = 9 ∨ (i = 10 ∨ i = 11) ∨ 12 ≤ i.toNat := by
  revert i; decide

theorem rsvd_high (we : Bool) (i : RegIdx) :
    12 ≤ i.toNat → (BitVec.ofBool we ++ i : BitVec 5) &&& 0x1C#5 = BitVec.ofBool we ++ 0xC#4 := by
  revert we i; decide

theorem rdRsvd (idx : RegIdx) (v : Word) : Statement (.rdRsvd idx v) := by
  rintro h _ ⟨⟩
  have h : 9 ≤ idx.toNat := by simpa [wellFormed] using h
  rcases rsvd_cases idx h with rfl | h | h
  · exact .inl (fitsHost_mkCmd (m := 0x1F#5) (r := 0x09#5) (by decide) (by decide) (by decide))
  · refine .inr (.inl (fitsHost_mkCmd (m := 0x1E#5) (r := 0x0A#5) (by decide) (by decide) ?_))
    rcases h with rfl | rfl <;> decide
  · refine .inr (.inr (fitsHost_mkCmd (m := 0x1C#5) (r := 0x0C#5) (by decide) (by decide) ?_))
    exact rsvd_high _ idx h

theorem wrRsvd (idx : RegIdx) (v : Word) : Statement (.wrRsvd idx v) := by
  rintro h _ ⟨⟩
  have h : 9 ≤ idx.toNat := by simpa [wellFormed] using h
  rcases rsvd_cases idx h with rfl | h | h
  · exact .inl (fitsHost_mkCmd (m := 0x1F#5) (r := 0x19#5) (by decide) (by decide) (by decide))
  · refine .inr (.inl (fitsHost_mkCmd (m := 0x1E#5) (r := 0x1A#5) (by decide) (by decide) ?_))
    rcases h with rfl | rfl <;> decide
  · refine .inr (.inr (fitsHost_mkCmd (m := 0x1C#5) (r := 0x1C#5) (by decide) (by decide) ?_))
    exact rsvd_high _ idx h

end Sys2Proof.Laws.Row
end

