-- ==== Sys2Proof/Laws/Step.lean ====
section
/-! SUPPORT. What a step can do, said once: the engine's turn, the host's accesses, and the world's steps (spec/42_driver.md R191). -/

namespace Sys2Proof.Machine

/-- What the engine's turn in `s` can do: nothing, one unpacker operation on the head of the source, one
decoder operation on the head of CQ, or the model fault of R157. -/
inductive EngineStep (s : State) : Result → Prop where
  /-- The engine waits (R191). -/
  | wait (h : s.state ≠ .run ∨ (s.cq = [] ∧ (s.eofSeen = true ∨ s.source = []))) :
      EngineStep s (.next s)
  /-- U_HOLD1 (R121). -/
  | hold1 (b : Byte) (ts : List Token) (h : s.inReady) (hs : s.source = byteToken b :: ts)
      (hp : s.uph = .zero) :
      EngineStep s (.next { s.countByte with source := ts, ub1 := b, uph := .one })
  /-- U_HOLD2 (R122). -/
  | hold2 (b : Byte) (ts : List Token) (h : s.inReady) (hs : s.source = byteToken b :: ts)
      (hp : s.uph = .one) :
      EngineStep s (.next { s.countByte with source := ts, ub2 := b, uph := .two })
  /-- U_FULL (R123). -/
  | full (b : Byte) (ts : List Token) (h : s.inReady) (hs : s.source = byteToken b :: ts)
      (hp : s.uph = .two) :
      EngineStep s (.next
        { s.countByte with source := ts, cq := [codeA s.ub1 s.ub2, codeB s.ub2 b], uph := .zero })
  /-- U_END0 (R125). -/
  | end0 (data : Byte) (ts : List Token) (h : s.inReady) (hs : s.source = endToken data :: ts)
      (hp : s.uph = .zero) : EngineStep s (.next { s with source := ts, state := .done })
  /-- U_END1 (R126). -/
  | end1 (data : Byte) (ts : List Token) (h : s.inReady) (hs : s.source = endToken data :: ts)
      (hp : s.uph = .one) :
      EngineStep s (.next { s with source := ts, trunc := true, uph := .zero, state := .done })
  /-- U_END2 (R127). -/
  | end2 (data : Byte) (ts : List Token) (h : s.inReady) (hs : s.source = endToken data :: ts)
      (hp : s.uph = .two) :
      EngineStep s (.next { s with source := ts, cq := [codeT s.ub1 s.ub2], uph := .zero, eofSeen := true })
  /-- An error of a decode step (R254, R255). -/
  | err (c : Codeword) (cs : List Codeword) (e : ErrCode) (h : s.state = .run) (hc : s.cq = c :: cs)
      (he : e ≠ .noError) :
      EngineStep s (.next { s with cq := cs, lastCode := c, state := .error, errCode := e })
  /-- A successful D_FIRST (R152). -/
  | first (c : Codeword) (cs : List Codeword) (result : Str) (h : s.state = .run) (hc : s.cq = c :: cs)
      (hl : s.last = []) (ht : s.tsize.toNat = 256) (hr : s.symRead c.toNat = some result)
      (ho : s.outLen.toNat + result.length ≤ s.outCap) :
      EngineStep s (.next ((s.takeCode c).commit result))
  /-- A successful D_HIT or D_KWKWK (R153, R154). -/
  | insert (c : Codeword) (cs : List Codeword) (new result : Str) (h : s.state = .run)
      (hc : s.cq = c :: cs) (hl : s.last ≠ [])
      (hr : (s.symRead c.toNat = some result ∧ new = s.last ++ result.take 1) ∨
        (c.toNat = s.tsize.toNat ∧ result = new ∧ new = s.last ++ s.last.take 1))
      (hn : new.length = s.last.length + 1) (hs : new.length ≤ s.strCap)
      (ho : s.outLen.toNat + result.length ≤ s.outCap) :
      EngineStep s (.next ((((s.takeCode c).symWrite new).resetIfFull).commit result))
  /-- SymRead of an absent slot (R61). -/
  | absent (c : Codeword) (cs : List Codeword) (h : s.state = .run) (hc : s.cq = c :: cs)
      (ht : c.toNat < s.tsize.toNat) (hr : s.symRead c.toNat = none) :
      EngineStep s (.fault .symReadAbsent)
  /-- An empty LAST with TSIZE != 256 (R157). -/
  | emptyLast (h : s.state = .run) (hl : s.last = []) (ht : s.tsize.toNat ≠ 256) :
      EngineStep s (.fault .emptyLast)

/-- The engine's turn as a function: the operation it selects, executed. -/
def engineStep (s : State) : Result :=
  match fetchEngine s with
  | .run i s' => exec i s'
  | .still s' => .next s'
  | .stop f => .fault f

theorem engineStep_unpack {s : State} {t : Token} {ts : List Token} {p : Phase} (h : s.inReady)
    (hs : s.source = t :: ts) (hp : s.uph = p) :
    engineStep s = exec (decodeToken p t) { s with source := ts } := by
  obtain ⟨h1, h2, h3⟩ := h
  subst hp
  simp [engineStep, fetchEngine, h1, h2, h3, hs]

theorem engineStep_decode {s : State} {c : Codeword} {cs : List Codeword} (h : s.state = .run)
    (hc : s.cq = c :: cs) :
    engineStep s =
      match decodeCode s.tsize s.last.isEmpty c with
      | .ok i => exec i s
      | .error _ => .fault .emptyLast := by
  simp only [engineStep, fetchEngine, h, hc, if_true, decode, State.ctx]
  cases hd : decodeCode s.tsize s.last.isEmpty c with
  | ok i => rfl
  | error r => cases r; rfl

theorem engineStep_wait {s : State}
    (h : s.state ≠ .run ∨ (s.cq = [] ∧ (s.eofSeen = true ∨ s.source = []))) :
    engineStep s = .next s := by
  unfold engineStep fetchEngine
  by_cases hs : s.state = .run
  · rcases h with h | ⟨hc, h⟩
    · exact absurd hs h
    · simp only [hs, if_true, hc]
      by_cases he : s.eofSeen = true
      · simp [he]
      · rcases h with h | h
        · exact absurd h he
        · simp [he, h]
  · simp [hs]

/-- Whatever the engine's turn answers is one of the cases of `EngineStep`. -/
theorem engineStep_cases (s : State) : EngineStep s (engineStep s) := by
  by_cases hrun : s.state = .run
  swap
  · have hw : s.state ≠ .run ∨ (s.cq = [] ∧ (s.eofSeen = true ∨ s.source = [])) := .inl hrun
    rw [engineStep_wait hw]; exact .wait hw
  cases hcq : s.cq with
  | nil =>
    by_cases he : s.eofSeen = true
    · have hw : s.state ≠ .run ∨ (s.cq = [] ∧ (s.eofSeen = true ∨ s.source = [])) := .inr ⟨hcq, .inl he⟩
      rw [engineStep_wait hw]; exact .wait hw
    cases hsrc : s.source with
    | nil =>
      have hw : s.state ≠ .run ∨ (s.cq = [] ∧ (s.eofSeen = true ∨ s.source = [])) := .inr ⟨hcq, .inr hsrc⟩
      rw [engineStep_wait hw]; exact .wait hw
    | cons t ts =>
      have hin : s.inReady := ⟨hrun, hcq, by simpa using he⟩
      have hin' : State.inReady { s with source := ts } := hin
      obtain ⟨p, hp⟩ : ∃ p, s.uph = p := ⟨_, rfl⟩
      rw [engineStep_unpack hin hsrc hp]
      have htok := token_eq t
      cases hend : tokenEnd t with
      | false =>
        rw [hend] at htok
        simp only [Bool.false_eq_true, if_false] at htok
        rw [htok] at hsrc ⊢
        cases p
        · simp only [decodeToken, tokenEnd_byteToken, tokenData_byteToken, exec]
          rw [execUHold1_eq _ hin' hp]
          exact .hold1 _ _ hin hsrc hp
        · simp only [decodeToken, tokenEnd_byteToken, tokenData_byteToken, exec]
          rw [execUHold2_eq _ hin' hp]
          exact .hold2 _ _ hin hsrc hp
        · simp only [decodeToken, tokenEnd_byteToken, tokenData_byteToken, exec]
          rw [execUFull_eq _ hin' hp]
          exact .full _ _ hin hsrc hp
      | true =>
        rw [hend] at htok
        simp only [if_true] at htok
        rw [htok] at hsrc ⊢
        cases p
        · simp only [decodeToken, tokenEnd_endToken, tokenData_endToken, exec]
          rw [execUEnd0_eq _ hin' hp]
          exact .end0 _ _ hin hsrc hp
        · simp only [decodeToken, tokenEnd_endToken, tokenData_endToken, exec]
          rw [execUEnd1_eq _ hin' hp]
          exact .end1 _ _ hin hsrc hp
        · simp only [decodeToken, tokenEnd_endToken, tokenData_endToken, exec]
          rw [execUEnd2_eq _ hin' hp]
          exact .end2 _ _ hin hsrc hp
  | cons c cs =>
    have hdr : s.decodeReady c := ⟨hrun, by rw [hcq]; rfl⟩
    have herr : ∀ e, (s.takeCode c).raise e = { s with cq := cs, lastCode := c, state := .error, errCode := e } := by
      intro e; simp [State.takeCode, State.raise, hcq]
    rw [engineStep_decode hrun hcq]
    rcases decodeCode_cases s.tsize s.last.isEmpty c with
      ⟨hl, ht, hd⟩ | ⟨hl, ht, h3, hd⟩ | ⟨hl, ht, h3, hd⟩ | ⟨hl, h3, hd⟩ | ⟨hl, h3, hd⟩ | ⟨hl, h3, hd⟩ <;>
      rw [hd] <;> simp only [exec]
    · exact .emptyLast hrun (by simpa using hl) ht
    · have hl' : s.last = [] := by simpa using hl
      rw [execDFirst_eq hdr ht hl' h3]
      cases hr : s.symRead c.toNat with
      | none => exact .absent c cs hrun hcq (by omega) hr
      | some result =>
        simp only
        rcases (s.takeCode c).deliver_cases result with ⟨_, e⟩ | ⟨ho, e⟩
        · rw [e, herr]; exact .err c cs _ hrun hcq (by decide)
        · rw [e]; exact .first c cs result hrun hcq hl' ht hr ho
    · rw [execDCorruptFirst_eq hdr ht (by simpa using hl) h3, herr]
      exact .err c cs _ hrun hcq (by decide)
    · have hl' : s.last ≠ [] := by intro h; simp [h] at hl
      rw [execDHit_eq hdr hl' h3]
      cases hr : s.symRead c.toNat with
      | none => exact .absent c cs hrun hcq h3 hr
      | some entry =>
        simp only
        have hne : entry ≠ [] := (State.symRead_eq_some.1 hr).2.2
        rcases (s.takeCode c).insertDeliver_cases (s.last ++ entry.take 1) entry with ⟨_, e⟩ | ⟨_, _, e⟩ | ⟨h1, ho, e⟩
        · rw [e, herr]; exact .err c cs _ hrun hcq (by decide)
        · rw [e, herr]; exact .err c cs _ hrun hcq (by decide)
        · rw [e]; exact .insert c cs _ entry hrun hcq hl' (.inl ⟨hr, rfl⟩) (length_new hne) h1 ho
    · have hl' : s.last ≠ [] := by intro h; simp [h] at hl
      rw [execDKwkwk_eq hdr hl' h3]
      rcases (s.takeCode c).insertDeliver_cases (s.last ++ s.last.take 1) (s.last ++ s.last.take 1) with
        ⟨_, e⟩ | ⟨_, _, e⟩ | ⟨h1, ho, e⟩
      · rw [e, herr]; exact .err c cs _ hrun hcq (by decide)
      · rw [e, herr]; exact .err c cs _ hrun hcq (by decide)
      · rw [e]; exact .insert c cs _ _ hrun hcq hl' (.inr ⟨h3, rfl, rfl⟩) (length_new hl') h1 ho
    · have hl' : s.last ≠ [] := by intro h; simp [h] at hl
      rw [execDCorrupt_eq hdr hl' h3, herr]
      exact .err c cs _ hrun hcq (by decide)

/-- What a host command can do: give the host a word, nothing, a write of IRQ_EN with or without START, or a
write of OUT_ADDR (R210). -/
theorem exec_host_cases (h : HostCmd) (s : State) :
    (cmdWrite h = false ∧ ∃ v, exec (decodeHost h) s = .next (s.hostReceives v)) ∨
    (cmdWrite h = true ∧ exec (decodeHost h) s = .next s) ∨
    (cmdWrite h = true ∧ cmdIdx h = 0#4 ∧ exec (decodeHost h) s =
      .next (if (cmdData h).getLsbD 0 then State.start { s with irqEn := (cmdData h).getLsbD 1 }
             else { s with irqEn := (cmdData h).getLsbD 1 })) ∨
    (cmdWrite h = true ∧ cmdIdx h = 3#4 ∧ exec (decodeHost h) s = .next { s with outAddr := cmdData h }) := by
  have hidx : ∀ k : Nat, k < 16 → (cmdIdx h).toNat = k → cmdIdx h = BitVec.ofNat 4 k := by
    intro k hk e
    apply BitVec.eq_of_toNat_eq
    simp [e]; omega
  unfold decodeHost
  split <;> rename_i hw hi <;>
    first
      | exact .inl ⟨hw, _, rfl⟩
      | exact .inr (.inl ⟨hw, rfl⟩)
      | exact .inr (.inr (.inl ⟨hw, hidx 0 (by decide) hi, execWrCtrl_eq _ _⟩))
      | exact .inr (.inr (.inr ⟨hw, hidx 3 (by decide) hi, rfl⟩))
      | exact .inl ⟨by assumption, _, rfl⟩
      | exact .inr (.inl ⟨by assumption, rfl⟩)

/-- The step, by the next event: an engine turn, a host access, a step of the source, or a hardware reset. -/
theorem step_eq (s : State) :
    step s =
      match s.events with
      | [] => engineStep s
      | .engine :: es => engineStep { s with events := es }
      | .offer t :: es => .next { s with events := es, source := s.source ++ [t] }
      | .withdraw :: es => .next { s with events := es, source := [] }
      | .host h :: es => exec (decodeHost h) { s with events := es }
      | .hwReset :: es => .next (State.hardwareReset { s with events := es }) := by
  unfold step fetch engineStep
  cases s.events with
  | nil => rfl
  | cons e es => cases e <;> rfl

/-- The step in the engine's turn. -/
theorem step_engineTurn {s : State} {es : List Event} (h : s.EngineTurn es) :
    step s = engineStep { s with events := es } := by
  rw [step_eq]
  rcases h with ⟨h, rfl⟩ | h
  · have e : s = { s with events := [] } := by cases s; simp_all
    rw [h, ← e]
  · rw [h]

end Sys2Proof.Machine
end

