-- ==== Sys2Proof/Laws/Run.lean ====
section
/-! SUPPORT. One decode step against the source's algorithm over plain lists (spec/41_dictionary.md R151; Safety.lean). -/

namespace Sys2Proof.Machine

/-- The state agrees with the source's algorithm over plain lists: the table, the last string, the output, and the number of
codewords decoded, with no error so far and no event but engine turns to come. -/
structure Sim (s : State) (table : List Str) (last out : Str) (k : Nat) : Prop where
  caps : s.outCap ≤ 4294967295
  events : s.events = []
  err : s.errCode = .noError
  trunc : s.trunc = false
  tsize : s.tsize.toNat = table.length
  lo : 256 ≤ table.length
  hi : table.length ≤ 4095
  tab : ∀ i, i < table.length → Memory.read s.symtab i = table[i]?
  ne : ∀ (i : Nat) (str : Str), table[i]? = some str → str ≠ []
  last_eq : s.last = last
  first : last = [] → table.length = 256
  outLen : s.outLen.toNat = out.length
  fits : out.length ≤ s.outCap
  outb : ∀ i, i < out.length → Memory.read (α := Byte) s.outbuf i = out[i]?
  cnt : s.codeCount = BitVec.ofNat 32 k

@[simp] theorem refInitial_length : refInitial.length = 256 := by simp [refInitial]
theorem refInitial_get (i : Nat) (h : i < 256) : refInitial[i]? = some [BitVec.ofNat 8 i] := by
  simp [refInitial, h]

/-- `t` is an error end of the run in `s`, with the output as it was (R255). -/
structure Failed (s t : State) (e : ErrCode) : Prop where
  st : t.state = .error
  er : t.errCode = e
  ob : t.outbuf = s.outbuf
  ol : t.outLen = s.outLen
  cc : t.codeCount = s.codeCount

/-- The end of a successful decode step agrees with the algorithm's append (R151, R192). -/
theorem sim_commit {s t : State} {table table' : List Str} {last out result : Str} {k : Nat}
   (h : Sim s table last out k) (h0 : t.outCap = s.outCap) (h1 : t.events = s.events) (h2 : t.errCode = s.errCode) (h3 : t.trunc = s.trunc)
   (h4 : t.outLen = s.outLen) (h5 : t.outbuf = s.outbuf) (h6 : t.codeCount = s.codeCount)
   (ho : s.outLen.toNat + result.length ≤ s.outCap) (hr : result ≠ [])
   (g1 : t.tsize.toNat = table'.length) (g2 : 256 ≤ table'.length) (g3 : table'.length ≤ 4095)
   (g4 : ∀ i, i < table'.length → Memory.read t.symtab i = table'[i]?)
   (g5 : ∀ (i : Nat) (str : Str), table'[i]? = some str → str ≠ []) : Sim (t.commit result) table' result (out ++ result) (k+1) := by
  rw [State.commit_eq]
  have hol : (s.outLen + BitVec.ofNat 32 result.length).toNat = s.outLen.toNat + result.length := outLen_add ho h.caps
  refine ⟨by rw [h0]; exact h.caps, by rw [h1]; exact h.events, by rw [h2]; exact h.err, by rw [h3]; exact h.trunc, g1, g2, g3, g4, g5, rfl, fun hh => absurd hh hr, ?_, ?_, ?_, ?_⟩
  · simp only [h4, hol, h.outLen, List.length_append]
  · rw [List.length_append, ← h.outLen]; simp only [h0]; exact ho
  · intro i hi
    simp only [h4, h5, Memory.read_writeStr]
    rw [List.length_append, ← h.outLen] at hi
    by_cases hlt : i < s.outLen.toNat
    · rw [if_neg (by omega), h.outb i (by rw [← h.outLen]; exact hlt), List.getElem?_append_left (by rw [← h.outLen]; exact hlt)]
    · rw [if_pos (by omega), List.getElem?_append_right (by rw [← h.outLen]; omega), h.outLen]
  · simp only [h6, h.cnt]
    rw [BitVec.ofNat_add]

/-- One decode step of the machine is one call of the source's `decode` (R151). -/
theorem decode_sim {s : State} {table last out k} (h : Sim s table last out k) {c : Codeword} {cs : List Codeword}
   (hr : s.state = .run) (hc : s.cq = c :: cs) :
   match refDecode s.strCap (s.outCap - out.length) table last c.toNat with
   | .error e => e ≠ .noError ∧ ∃ t, engineStep s = .next t ∧ Failed s t e
   | .ok (table', result) => ∃ t, engineStep s = .next t ∧ Sim t table' result (out ++ result) (k + 1) ∧ t.cq = cs ∧
       t.state = (if cs = [] ∧ s.eofSeen = true then .done else .run) ∧ t.source = s.source ∧ t.eofSeen = s.eofSeen ∧ t.uph = s.uph ∧ t.byteCount = s.byteCount ∧ t.outCap = s.outCap ∧ t.strCap = s.strCap := by
  have hdr : s.decodeReady c := ⟨hr, by rw [hc]; rfl⟩
  have htl : s.cq.tail = cs := by rw [hc]; rfl
  have fail : ∀ e, Failed s ((s.takeCode c).raise e) e := fun e => ⟨rfl, rfl, rfl, rfl, rfl⟩
  have hfit := h.fits
  have hol := h.outLen
  rw [engineStep_decode hr hc]
  unfold refDecode
  by_cases hl : last = []
  · have h256 := h.first hl
    have hsl : s.last = [] := by rw [h.last_eq, hl]
    have ht : s.tsize.toNat = 256 := by rw [h.tsize, h256]
    simp only [hl, if_true]
    by_cases hlt : c.toNat < 256
    · have hg : table[c.toNat]? = some table[c.toNat] := List.getElem?_eq_getElem (by omega)
      rw [hg]
      have hd : decodeCode s.tsize s.last.isEmpty c = .ok (.dFirst c) := by simp [decodeCode, hsl, ht, hlt]
      rw [hd]
      simp only [exec]
      rw [execDFirst_eq hdr ht hsl hlt]
      have hsr : s.symRead c.toNat = some table[c.toNat] := State.symRead_eq_some.2 ⟨by omega, by rw [h.tab _ (by omega), hg], h.ne _ _ hg⟩
      rw [hsr]
      simp only
      rcases (s.takeCode c).deliver_cases table[c.toNat] with ⟨f1, e⟩ | ⟨f1, e⟩
      · simp only [State.takeCode_outCap, State.takeCode_outLen] at f1
        rw [if_pos (by omega), e]
        exact ⟨by decide, _, rfl, fail _⟩
      · simp only [State.takeCode_outCap, State.takeCode_outLen] at f1
        rw [if_neg (by omega), e]
        refine ⟨_, rfl, sim_commit h rfl rfl rfl rfl rfl rfl rfl f1 (h.ne _ _ hg) h.tsize h.lo h.hi h.tab h.ne, ?_⟩
        rw [State.commit_eq]
        simp [htl, hr]
    · have hg : table[c.toNat]? = none := List.getElem?_eq_none (by omega)
      rw [hg]
      have hd : decodeCode s.tsize s.last.isEmpty c = .ok (.dCorruptFirst c) := by simp [decodeCode, hsl, ht, hlt]
      rw [hd]
      simp only [exec]
      rw [execDCorruptFirst_eq hdr ht hsl (by omega)]
      exact ⟨by decide, _, rfl, fail _⟩
  · have hsl : s.last ≠ [] := by rw [h.last_eq]; exact hl
    have hie : s.last.isEmpty = false := by simpa using hsl
    simp only [hl, if_false]
    -- the insertion
    have ins : ∀ (new result : Str), new.length = last.length + 1 → result ≠ [] → new = last ++ result.take 1 →
      match (if s.strCap < last.length + 1 then Except.error ErrCode.strOvf
      else if s.outCap - out.length < result.length then .error .outOvf
      else if table.length = 4095 then .ok (refInitial, result)
      else .ok (table ++ [last ++ result.take 1], result) : Except ErrCode (List Str × Str)) with
      | .error e => e ≠ .noError ∧ ∃ t, (Host.Outcome.next ((s.takeCode c).insertDeliver new result) : Result) = .next t ∧ Failed s t e
      | .ok (table', res) => ∃ t, (Host.Outcome.next ((s.takeCode c).insertDeliver new result) : Result) = .next t ∧ Sim t table' res (out ++ res) (k + 1) ∧ t.cq = cs ∧
       t.state = (if cs = [] ∧ s.eofSeen = true then .done else .run) ∧ t.source = s.source ∧ t.eofSeen = s.eofSeen ∧ t.uph = s.uph ∧ t.byteCount = s.byteCount ∧ t.outCap = s.outCap ∧ t.strCap = s.strCap := by
      intro new result hnl hrn hnew
      rcases (s.takeCode c).insertDeliver_cases new result with ⟨f, e⟩ | ⟨f, f', e⟩ | ⟨f, f', e⟩ <;>
        simp only [State.takeCode_strCap, hnl] at f
      · rw [if_pos f, e]; exact ⟨by decide, _, rfl, fail _⟩
      · simp only [State.takeCode_outCap, State.takeCode_outLen] at f'
        rw [if_neg (by omega), if_pos (by omega), e]
        exact ⟨by decide, _, rfl, fail _⟩
      · simp only [State.takeCode_outCap, State.takeCode_outLen] at f'
        rw [if_neg (by omega), if_neg (by omega), e]
        obtain ⟨i1, i2⟩ := (s.takeCode c).insertedAt_symWrite new
        have tailfacts : ∀ t, t = (((s.takeCode c).symWrite new).resetIfFull).commit result → t.cq = cs ∧
            t.state = (if cs = [] ∧ s.eofSeen = true then .done else .run) ∧ t.source = s.source ∧ t.eofSeen = s.eofSeen ∧ t.uph = s.uph ∧ t.byteCount = s.byteCount ∧ t.outCap = s.outCap ∧ t.strCap = s.strCap := by
          rintro t rfl
          rw [State.commit_eq]
          simp [htl, hr]
        by_cases h4 : table.length = 4095
        · rw [if_pos h4]
          have he : s.tsize = 4095#13 := by apply BitVec.eq_of_toNat_eq; rw [h.tsize, h4]; rfl
          obtain ⟨j1, j2⟩ := i2 he
          refine ⟨_, rfl, sim_commit h (by simp) (by simp) (by simp) (by simp) (by simp) (by simp) (by simp) f' hrn ?_ ?_ ?_ ?_ ?_, tailfacts _ rfl⟩
          · rw [j1, refInitial_length]; rfl
          · rw [refInitial_length]
          · rw [refInitial_length]; decide
          · intro i hi; rw [refInitial_length] at hi; rw [j2, if_pos hi, refInitial_get i hi]
          · intro i str hi
            have : i < refInitial.length := by
              by_contra hh; rw [List.getElem?_eq_none (by omega)] at hi; cases hi
            rw [refInitial_length] at this
            rw [refInitial_get i this] at hi; cases hi; simp
        · rw [if_neg h4]
          have he : s.tsize ≠ 4095#13 := by
            intro he; apply h4; rw [← h.tsize, he]; rfl
          obtain ⟨j1, j2⟩ := i1 he
          have hhi := h.hi
          refine ⟨_, rfl, sim_commit h (by simp) (by simp) (by simp) (by simp) (by simp) (by simp) (by simp) f' hrn ?_ ?_ ?_ ?_ ?_, tailfacts _ rfl⟩
          · rw [j1, BitVec.toNat_add]; simp [h.tsize]; omega
          · simp; have := h.lo; omega
          · simp; omega
          · intro i hi
            simp only [List.length_append, List.length_singleton] at hi
            rw [j2]
            simp only [State.takeCode_tsize, h.tsize, State.takeCode_symtab]
            by_cases hit : i = table.length
            · rw [if_pos hit, hit, List.getElem?_append_right (Nat.le_refl _), hnew]; simp
            · rw [if_neg hit, List.getElem?_append_left (by omega), h.tab i (by omega)]
          · intro i str hi
            by_cases hit : i < table.length
            · rw [List.getElem?_append_left hit] at hi; exact h.ne i str hi
            · rw [List.getElem?_append_right (by omega)] at hi
              have : i - table.length = 0 := by
                by_contra hh
                rw [List.getElem?_eq_none (by simp; omega)] at hi; cases hi
              rw [this] at hi; simp at hi; subst hi; simp [hl]
    rcases Nat.lt_trichotomy c.toNat table.length with hlt | heq | hgt
    · have hg : table[c.toNat]? = some table[c.toNat] := List.getElem?_eq_getElem hlt
      have hd : decodeCode s.tsize s.last.isEmpty c = .ok (.dHit c) := by simp [decodeCode, hie, h.tsize, hlt]
      rw [hd, List.getElem?_append_left hlt, hg]
      simp only [exec]
      rw [execDHit_eq hdr hsl (by rw [h.tsize]; exact hlt)]
      have hsr : s.symRead c.toNat = some table[c.toNat] := State.symRead_eq_some.2 ⟨by rw [h.tsize]; omega, by rw [h.tab _ hlt, hg], h.ne _ _ hg⟩
      rw [hsr, h.last_eq]
      simp only []
      exact ins _ _ (length_new (h.ne _ _ hg)) (h.ne _ _ hg) rfl
    · have hd : decodeCode s.tsize s.last.isEmpty c = .ok (.dKwkwk c) := by simp [decodeCode, hie, h.tsize, heq]
      rw [hd, heq, List.getElem?_append_right (Nat.le_refl _)]
      simp only [exec, Nat.sub_self, List.getElem?_cons_zero]
      rw [execDKwkwk_eq hdr hsl (by rw [h.tsize]; exact heq), h.last_eq]
      refine ins _ _ (length_new hl) (by simp [hl]) ?_
      cases last with
      | nil => exact absurd rfl hl
      | cons b t => simp
    · have hd : decodeCode s.tsize s.last.isEmpty c = .ok (.dCorrupt c) := by
        have h1 : ¬ c.toNat < table.length := by omega
        have h2 : ¬ c.toNat = table.length := by omega
        simp [decodeCode, hie, h.tsize, h1, h2]
      rw [hd, List.getElem?_eq_none (by simp; omega)]
      simp only [exec]
      rw [execDCorrupt_eq hdr hsl (by rw [h.tsize]; exact hgt)]
      exact ⟨by decide, _, rfl, fail _⟩

end Sys2Proof.Machine
end

