-- ==== Sys2Proof/Tests/Slice0.lean ====
section
/-! SUPPORT. Tests of single operations and steps against values from spec/95_test_vectors.md, and for every statement with hypotheses a state and operands that meet them. -/

namespace Sys2Proof.Tests

open Sys2Proof Sys2Proof.Machine

/-! ## Well-formedness: one ill-formed term for each check, beside the last well-formed one -/

theorem test_wf_first : wellFormed (.dFirst 0xFF#16) = true ∧ wellFormed (.dFirst 0x100#16) = false := by decide

theorem test_wf_corruptFirst :
    wellFormed (.dCorruptFirst 0x100#16) = true ∧ wellFormed (.dCorruptFirst 0xFF#16) = false := by decide

theorem test_wf_hit : wellFormed (.dHit 0xFFE#16) = true ∧ wellFormed (.dHit 0xFFF#16) = false := by decide

theorem test_wf_kwkwk :
    wellFormed (.dKwkwk 0x100#16) = true ∧ wellFormed (.dKwkwk 0xFFF#16) = true ∧
    wellFormed (.dKwkwk 0xFF#16) = false ∧ wellFormed (.dKwkwk 0x1000#16) = false := by decide

theorem test_wf_corrupt :
    wellFormed (.dCorrupt 0x101#16) = true ∧ wellFormed (.dCorrupt 0x100#16) = false := by decide

theorem test_wf_append :
    wellFormed (.dAppend [0x41#8]) = true ∧ wellFormed (.dAppend []) = false := by decide

theorem test_wf_rsvd :
    wellFormed (.rdRsvd 9#4 0#32) = true ∧ wellFormed (.rdRsvd 8#4 0#32) = false ∧
    wellFormed (.wrRsvd 15#4 0#32) = true ∧ wellFormed (.wrRsvd 8#4 0#32) = false := by decide

/-! ## Decoding: words written out from the spec's encodings -/

/-- R90: `in_end` at bit 8, DATA below; the operation by UPH (R121 to R127). -/
theorem test_decode_tokens :
    decodeToken .zero 0b0_00000000#9 = .uHold1 0x00#8 ∧
    decodeToken .zero 0b0_11111111#9 = .uHold1 0xFF#8 ∧
    decodeToken .one 0b0_00010000#9 = .uHold2 0x10#8 ∧
    decodeToken .two 0b0_01000010#9 = .uFull 0x42#8 ∧
    decodeToken .zero 0b1_00000000#9 = .uEnd0 0x00#8 ∧
    decodeToken .one 0b1_10100101#9 = .uEnd1 0xA5#8 ∧
    decodeToken .two 0b1_10100101#9 = .uEnd2 0xA5#8 := by decide

/-- R100; rows of 95_test_vectors.md 2.2 and 2.3. -/
theorem test_decode_codewords :
    decodeCode 256#13 true 0b0000000001000001#16 = .ok (.dFirst 0x41#16) ∧
    decodeCode 256#13 true 0b0000000011111111#16 = .ok (.dFirst 0xFF#16) ∧
    decodeCode 256#13 true 0b0000000100000000#16 = .ok (.dCorruptFirst 0x100#16) ∧
    decodeCode 300#13 false 0b0000000100000000#16 = .ok (.dHit 0x100#16) ∧
    decodeCode 300#13 false 0b0000000100101100#16 = .ok (.dKwkwk 0x12C#16) ∧
    decodeCode 300#13 false 0b0001000000000000#16 = .ok (.dCorrupt 0x1000#16) ∧
    decodeCode 256#13 false 0b0000000100000000#16 = .ok (.dKwkwk 0x100#16) ∧
    decodeCode 257#13 true 0b0000000001000001#16 = .error .emptyLast := ⟨rfl, rfl, rfl, rfl, rfl, rfl, rfl, rfl⟩

/-- R101: WE at bit 36, IDX at 35 to 32, WDATA below; the reads (R43). -/
theorem test_decode_reads :
    decodeHost 0x0000000000#37 = .rdCtrl 0#32 ∧ decodeHost 0x0100000000#37 = .rdStatus 0#32 ∧
    decodeHost 0x0200000000#37 = .rdOutLen 0#32 ∧ decodeHost 0x0300000000#37 = .rdOutAddr 0#32 ∧
    decodeHost 0x0400000000#37 = .rdOutData 0#32 ∧ decodeHost 0x0500000000#37 = .rdTableSize 0#32 ∧
    decodeHost 0x0600000000#37 = .rdCodeCount 0#32 ∧ decodeHost 0x0700000000#37 = .rdLastCode 0#32 ∧
    decodeHost 0x0800000000#37 = .rdByteCount 0#32 ∧ decodeHost 0x0900000000#37 = .rdRsvd 9#4 0#32 ∧
    decodeHost 0x0A00000000#37 = .rdRsvd 10#4 0#32 ∧ decodeHost 0x0F00000007#37 = .rdRsvd 15#4 7#32 := by decide

/-- R101: the writes (R43). -/
theorem test_decode_writes :
    decodeHost 0x10FFFFFFFE#37 = .wrCtrl 0xFFFFFFFE#32 ∧ decodeHost 0x11FFFFFFFF#37 = .wrStatus 0xFFFFFFFF#32 ∧
    decodeHost 0x1200000001#37 = .wrOutLen 1#32 ∧ decodeHost 0x13FFFFFFFF#37 = .wrOutAddr 0xFFFFFFFF#32 ∧
    decodeHost 0x1400000001#37 = .wrOutData 1#32 ∧ decodeHost 0x1500000001#37 = .wrTableSize 1#32 ∧
    decodeHost 0x1600000001#37 = .wrCodeCount 1#32 ∧ decodeHost 0x1700000001#37 = .wrLastCode 1#32 ∧
    decodeHost 0x1800000001#37 = .wrByteCount 1#32 ∧ decodeHost 0x1980000000#37 = .wrRsvd 9#4 0x80000000#32 ∧
    decodeHost 0x1C00001234#37 = .wrRsvd 12#4 0x1234#32 := by decide

/-- The encoder against the same words. -/
theorem test_encode :
    encode (.uHold1 0x10#8) = some (.token 0x010#9) ∧ encode (.uEnd2 0xA5#8) = some (.token 0x1A5#9) ∧
    encode (.dKwkwk 0x102#16) = some (.code 0x102#16) ∧
    encode (.wrCtrl 1#32) = some (.host 0x1000000001#37) ∧
    encode (.rdByteCount 0#32) = some (.host 0x0800000000#37) ∧
    encode .tableReset = none ∧ encode (.dAppend [0x41#8]) = none := by decide

/-! ## Operand assembly: the tables of 95_test_vectors.md 2.2, Scenario B, and the packed words of P3 -/

theorem test_full_chunks :
    (codeA 0x12#8 0x34#8, codeB 0x34#8 0x56#8) = (0x123#16, 0x456#16) ∧
    (codeA 0xFF#8 0xFF#8, codeB 0xFF#8 0xFF#8) = (0xFFF#16, 0xFFF#16) ∧
    (codeA 0x41#8 0x00#8, codeB 0x00#8 0x42#8) = (0x410#16, 0x042#16) ∧
    (codeA 0x00#8 0x0F#8, codeB 0x0F#8 0xFF#8) = (0x000#16, 0xFFF#16) ∧
    (codeA 0xFF#8 0xF0#8, codeB 0xF0#8 0x00#8) = (0xFFF#16, 0x000#16) := by decide

theorem test_trailing_pairs :
    codeT 0x00#8 0x41#8 = 0x0041#16 ∧ codeT 0x0F#8 0xFF#8 = 0x0FFF#16 ∧
    codeT 0x10#8 0x00#8 = 0x1000#16 ∧ codeT 0xFF#8 0xFF#8 = 0xFFFF#16 := by decide

theorem test_packing :
    (packB1 0xFFF#16, packB2 0xFFF#16 0x100#16, packB3 0x100#16) = (0xFF#8, 0xF1#8, 0x00#8) ∧
    (packB1 0x100#16, packB2 0x100#16 0x102#16, packB3 0x102#16) = (0x10#8, 0x01#8, 0x02#8) := by decide

/-! ## Single operations -/

/-- A condition on the next state of a result. -/
def next (r : Result) (p : State → Bool) : Bool :=
  match r with
  | .next t => p t
  | .fault _ => false
  | .refused _ => false

/-- The word a host read gives. -/
def word (r : Result) (w : Word) : Bool := next r fun t => t.hostRdata = w

/-- A block after reset, OUT_CAP 10. -/
def blk : State := State.resetWith 10 3841

/-- A run in progress at phase `p`, whose chunk began `b1 b2`. -/
def unpack (p : Phase) (b1 b2 : Byte) : State := { blk with state := .run, uph := p, ub1 := b1, ub2 := b2 }

/-- A run that has output `out`, with LAST, TSIZE, the entries "A", "B", 256 = "AB", and `c` to decode. -/
def dec (tsize : BitVec 13) (last out : Str) (c : Codeword) : State :=
  { blk with state := .run, cq := [c], tsize := tsize, last := last
             symtab := [(0x41, [0x41#8]), (0x42, [0x42#8]), (0x100, [0x41#8, 0x42#8])]
             outLen := BitVec.ofNat 32 out.length, outbuf := Memory.writeStr [] 0 out }

/-- A run that has ended in DONE with `out`. -/
def ended (out : Str) : State := { dec 258#13 [0x42#8] out 0#16 with state := .done, cq := [] }

/-- 95_test_vectors.md 2.2, the phase sequence. -/
theorem test_uHold1 : next (exec (.uHold1 0x41#8) (unpack .zero 0 0))
    (fun t => t.ub1 = 0x41#8 ∧ t.uph = .one ∧ t.byteCount = 1#32 ∧ t.state = .run) = true := by decide

theorem test_uHold2 : next (exec (.uHold2 0x00#8) (unpack .one 0x41 0x99))
    (fun t => t.ub1 = 0x41#8 ∧ t.ub2 = 0x00#8 ∧ t.uph = .two ∧ t.byteCount = 1#32) = true := by decide

theorem test_uFull : next (exec (.uFull 0x42#8) (unpack .two 0x41 0x00))
    (fun t => t.cq = [0x410#16, 0x042#16] ∧ t.uph = .zero ∧ t.byteCount = 1#32) = true := by decide

/-- R29: BYTE_COUNT is modulo 2^32. -/
theorem test_uFull_wraps : next (exec (.uFull 0#8) { unpack .two 0 0 with byteCount := 0xFFFFFFFF#32 })
    (fun t => t.byteCount = 0#32) = true := by decide

theorem test_uEnd0 : next (exec (.uEnd0 0xA5#8) (unpack .zero 0 0))
    (fun t => t.state = .done ∧ t.trunc = false ∧ t.byteCount = 0#32 ∧ t.statusReg = 0x2#32) = true := by decide

theorem test_uEnd1 : next (exec (.uEnd1 0x00#8) (unpack .one 0x99 0))
    (fun t => t.state = .done ∧ t.trunc = true ∧ t.uph = .zero ∧ t.statusReg = 0x6#32) = true := by decide

theorem test_uEnd2 : next (exec (.uEnd2 0x00#8) (unpack .two 0x10 0x00))
    (fun t => t.cq = [0x1000#16] ∧ t.eofSeen = true ∧ t.state = .run ∧ t.trunc = false ∧ t.byteCount = 0#32)
      = true := by decide

/-- 95_test_vectors.md 2.3, row 1. -/
theorem test_dFirst : next (exec (.dFirst 0x41#16) (dec 256#13 [] [] 0x41#16))
    (fun t => t.last = [0x41#8] ∧ t.tsize = 256#13 ∧ t.outLen = 1#32 ∧ t.memRead 0 = 0x41#8 ∧
      t.codeCount = 1#32 ∧ t.lastCode = 0x41#16 ∧ t.cq = [] ∧ t.state = .run) = true := by decide

/-- Scenario B's end: the trailing pair's codeword ends the run. -/
theorem test_dFirst_drains : next (exec (.dFirst 0x41#16) { dec 256#13 [] [] 0x41#16 with eofSeen := true })
    (fun t => t.state = .done ∧ t.outLen = 1#32) = true := by decide

/-- Row 5. -/
theorem test_dCorruptFirst : next (exec (.dCorruptFirst 0x410#16) (dec 256#13 [] [] 0x410#16))
    (fun t => t.statusReg = 0x13#32 ∧ t.lastCode = 0x410#16 ∧ t.codeCount = 0#32 ∧ t.outLen = 0#32 ∧
      t.last = [] ∧ t.cq = []) = true := by decide

/-- Row 9. -/
theorem test_dHit : next (exec (.dHit 0x100#16) (dec 257#13 [0x42#8] [0x41#8, 0x42#8] 0x100#16))
    (fun t => t.last = [0x41#8, 0x42#8] ∧ t.tsize = 258#13 ∧ t.symRead 257 = some [0x42#8, 0x41#8] ∧
      t.outLen = 4#32 ∧ t.memRead 2 = 0x41#8 ∧ t.memRead 3 = 0x42#8 ∧ t.memRead 4 = 0#8) = true := by decide

/-- Row 14: the result survives the table reset. -/
theorem test_dHit_resets : next (exec (.dHit 0x41#16) (dec 4095#13 [0x42#8] [] 0x41#16))
    (fun t => t.last = [0x41#8] ∧ t.tsize = 256#13 ∧ t.symRead 0 = some [0#8] ∧ t.symRead 256 = none ∧
      t.outLen = 1#32) = true := by decide

/-- Row 10. -/
theorem test_dKwkwk : next (exec (.dKwkwk 0x102#16) (dec 258#13 [0x41#8, 0x42#8] [] 0x102#16))
    (fun t => t.last = [0x41#8, 0x42#8, 0x41#8] ∧ t.tsize = 259#13 ∧
      t.symRead 258 = some [0x41#8, 0x42#8, 0x41#8] ∧ t.outLen = 3#32) = true := by decide

/-- Row 13. -/
theorem test_dKwkwk_resets : next (exec (.dKwkwk 0xFFF#16) (dec 4095#13 [0x42#8] [] 0xFFF#16))
    (fun t => t.last = [0x42#8, 0x42#8] ∧ t.tsize = 256#13 ∧ t.symRead 4095 = none ∧ t.outLen = 2#32)
      = true := by decide

/-- P4's last codeword. -/
theorem test_dCorrupt : next (exec (.dCorrupt 0x12C#16) { dec 257#13 [0x42#8] [0x41#8, 0x42#8] 0x12C#16 with codeCount := 2#32 })
    (fun t => t.statusReg = 0x13#32 ∧ t.tsize = 257#13 ∧ t.last = [0x42#8] ∧ t.outLen = 2#32 ∧
      t.codeCount = 2#32 ∧ t.lastCodeReg = 0x12C#32) = true := by decide

/-- 95_test_vectors.md 2.6: OUT_OVF at P1's third codeword with OUT_CAP = 3. -/
theorem test_outOvf : next (exec (.dHit 0x100#16) { dec 257#13 [0x42#8] [0x41#8, 0x42#8] 0x100#16 with outCap := 3 })
    (fun t => t.statusReg = 0x33#32 ∧ t.outLen = 2#32 ∧ t.tsize = 257#13 ∧ t.last = [0x42#8]) = true := by decide

/-- 2.6: STR_OVF is checked before OUT_OVF (here with a string bound of 1, for the test's size). -/
theorem test_strOvf : next (exec (.dHit 0x100#16) { dec 257#13 [0x42#8] [0x41#8, 0x42#8] 0x100#16 with outCap := 3, strCap := 1 })
    (fun t => t.statusReg = 0x23#32 ∧ t.outLen = 2#32) = true := by decide

theorem test_tableReset : next (exec .tableReset { dec 4096#13 [0x42#8] [] 0#16 with symtab := [(4095, [0x42#8])] })
    (fun t => t.tsize = 256#13 ∧ t.symRead 1 = some [1#8] ∧ t.symRead 4095 = none ∧ t.last = [0x42#8])
      = true := by decide

/-- 95_test_vectors.md 2.4, second and third rows. -/
theorem test_dAppend :
    next (exec (.dAppend [0x41#8, 0x42#8]) { dec 258#13 [0x42#8] [0#8, 0#8] 0#16 with outCap := 4 })
      (fun t => t.outLen = 4#32 ∧ t.memRead 2 = 0x41#8 ∧ t.memRead 3 = 0x42#8 ∧ t.last = [0x41#8, 0x42#8]) = true ∧
    next (exec (.dAppend [0x41#8, 0x42#8]) { dec 258#13 [0x42#8] [0#8, 0#8] 0#16 with outCap := 3 })
      (fun t => t.outLen = 2#32 ∧ t.statusReg = 0x33#32 ∧ t.tsize = 258#13) = true := by decide

/-- 95_test_vectors.md 2.5: reads after hardware reset. -/
theorem test_reads_after_reset :
    word (exec (.rdCtrl 0) blk) 0 = true ∧ word (exec (.rdStatus 0) blk) 0 = true ∧
    word (exec (.rdOutLen 0) blk) 0 = true ∧ word (exec (.rdOutAddr 0) blk) 0 = true ∧
    word (exec (.rdOutData 0) blk) 0 = true ∧ word (exec (.rdTableSize 0) blk) 0x100#32 = true ∧
    word (exec (.rdCodeCount 0) blk) 0 = true ∧ word (exec (.rdLastCode 0) blk) 0 = true ∧
    word (exec (.rdByteCount 0) blk) 0 = true ∧ word (exec (.rdRsvd 15 7) blk) 0 = true := by decide

/-- The registers of P5's end, as read. -/
theorem test_reads_after_run :
    let s := { ended [0x41#8, 0x42#8] with trunc := true, irqEn := true, codeCount := 2#32, lastCode := 0x42#16,
                                           byteCount := 4#32, outAddr := 1#32 }
    word (exec (.rdCtrl 0) s) 2#32 = true ∧ word (exec (.rdStatus 0) s) 6#32 = true ∧
    word (exec (.rdOutLen 0) s) 2#32 = true ∧ word (exec (.rdOutAddr 0) s) 1#32 = true ∧
    word (exec (.rdOutData 0) s) 0x42#32 = true ∧ word (exec (.rdTableSize 0) s) 258#32 = true ∧
    word (exec (.rdCodeCount 0) s) 2#32 = true ∧ word (exec (.rdLastCode 0) s) 0x42#32 = true ∧
    word (exec (.rdByteCount 0) s) 4#32 = true ∧ word (exec (.rdRsvd 9 0) s) 0#32 = true := by decide

/-- 2.5: `WR CTRL, 0xFFFFFFFE` sets IRQ_EN and starts nothing; `WR CTRL, 0x1` starts a run and clears IRQ_EN. -/
theorem test_wrCtrl :
    next (exec (.wrCtrl 0xFFFFFFFE#32) blk) (fun t => t.irqEn ∧ t.state = .idle ∧ t.ctrlReg = 2#32) = true ∧
    next (exec (.wrCtrl 1#32) { ended [0x41#8] with irqEn := true, outAddr := 5#32 })
      (fun t => t.irqEn = false ∧ t.state = .run ∧ t.outLen = 0#32 ∧ t.outAddr = 5#32 ∧ t.last = [] ∧
        t.tsize = 256#13 ∧ t.symRead 0x100 = none) = true := by decide

/-- 2.5: START in RUN is ignored; irq is a level that IRQ_EN gates. -/
theorem test_wrCtrl_in_run :
    next (exec (.wrCtrl 1#32) { dec 257#13 [0x42#8] [0x41#8] 0x41#16 with byteCount := 3#32 })
      (fun t => t.byteCount = 3#32 ∧ t.outLen = 1#32 ∧ t.cq = [0x41#16] ∧ t.tsize = 257#13) = true ∧
    next (exec (.wrCtrl 0#32) { ended [] with irqEn := true }) (fun t => t.irq = false ∧ t.state = .done) = true ∧
    State.irq { ended [] with irqEn := true } = true := by decide

theorem test_wrOutAddr :
    next (exec (.wrOutAddr 0xFFFFFFFF#32) (ended [0x41#8]))
      (fun t => t.outAddr = 0xFFFFFFFF#32 ∧ t.outDataReg = 0#32) = true := by decide

/-- R223, R225: the ignored writes. -/
theorem test_ignored_writes :
    exec (.wrStatus 0xFFFFFFFF#32) blk = .next blk ∧ exec (.wrOutLen 1#32) blk = .next blk ∧
    exec (.wrOutData 1#32) blk = .next blk ∧ exec (.wrTableSize 1#32) blk = .next blk ∧
    exec (.wrCodeCount 1#32) blk = .next blk ∧ exec (.wrLastCode 1#32) blk = .next blk ∧
    exec (.wrByteCount 1#32) blk = .next blk ∧ exec (.wrRsvd 12#4 0x1234#32) blk = .next blk :=
  ⟨rfl, rfl, rfl, rfl, rfl, rfl, rfl, rfl⟩

/-! ## Steps -/

/-- R191: the engine takes the head token when CQ is empty, and none while CQ holds a codeword. -/
theorem test_step_token :
    next (step { unpack .one 0x04 0 with source := [0x010#9, 0x042#9] })
      (fun t => t.ub2 = 0x10#8 ∧ t.source = [0x042#9]) = true ∧
    next (step { dec 256#13 [] [] 0x41#16 with source := [0x100#9] })
      (fun t => t.source = [0x100#9] ∧ t.last = [0x41#8]) = true := by decide

/-- 2.7: a hardware reset in the middle of a run; the tokens not yet consumed are still offered. -/
theorem test_step_reset :
    next (step { dec 257#13 [0x42#8] [0x41#8] 0x41#16 with
        irqEn := true, outAddr := 5#32, source := [0x042#9], events := [.hwReset] })
      (fun t => t.state = .idle ∧ t.outLen = 0#32 ∧ t.tsize = 256#13 ∧ t.irqEn = false ∧ t.outAddr = 0#32 ∧
        t.source = [0x042#9] ∧ t.outCap = 10) = true := by decide

/-- R157: the source's precondition violation is a fault of the model. -/
theorem test_step_emptyLast : step (dec 257#13 [] [] 0x41#16) = .fault .emptyLast := rfl

/-- A placed table word is what the next step runs, from reset. -/
theorem test_place_token :
    decodeTableWord 16 0x041 = some (.uHold1 0x41#8) ∧ decodeTableWord 16 0x1A5 = some (.uEnd0 0xA5#8) ∧
    next (step (State.reset.withFetchWord 16 0x041)) (fun t => t.ub1 = 0x41#8 ∧ t.uph = .one) = true ∧
    next (step (State.reset.withFetchWord 16 0x1A5)) (fun t => t.state = .done) = true := by decide

theorem test_place_codeword :
    decodeTableWord 16 0x410 = some (.dCorruptFirst 0x410#16) ∧
    next (step (State.reset.withFetchWord 16 0x410)) (fun t => t.errCode = .corrupt ∧ t.lastCode = 0x410#16)
      = true := by decide

theorem test_place_command :
    decodeTableWord 40 0x0500000000 = some (.rdTableSize 0#32) ∧
    decodeTableWord 40 0x2000000000 = none ∧
    next (step (State.reset.withFetchWord 40 0x0500000000)) (fun t => t.hostRdata = 0x100#32) = true := by decide

/-! ## Witnesses: for each statement with hypotheses, concrete values that meet all of them, clause by clause -/

/-- A state in the middle of a run that meets the invariants, with a table of `n` entries. -/
def mid (n : Nat) (cq : List Codeword) : State :=
  { blk with state := .run, cq := cq, tsize := BitVec.ofNat 13 n
             symtab := (List.range n).map fun i => (i, [BitVec.ofNat 8 i])
             last := [0x42#8], codeCount := 1#32, outLen := 1#32, outbuf := [(0, 0x42#8)] }

theorem mid_inv (n : Nat) (cq : List Codeword) (h : 256 ≤ n) (h' : n ≤ 4095) (hc : cq.length ≤ 2) :
    (mid n cq).Inv := by
  have hn : (BitVec.ofNat 13 n).toNat = n := by simp; omega
  refine ⟨⟨(by decide : Config.legalOutCap 10), (by decide : Config.legalStrCap 3841)⟩, ⟨wf_rangeTable n, ?_, ?_, fun i hi => ?_, fun k hk => ?_, fun k hk => ?_⟩, ?_, ?_, ?_, ?_⟩
  · show 256 ≤ (BitVec.ofNat 13 n).toNat; omega
  · show (BitVec.ofNat 13 n).toNat ≤ 4095; omega
  · exact (read_rangeTable n i).trans (if_pos (by omega))
  · have hk : k < n := by rw [← hn]; exact hk
    exact ⟨_, (read_rangeTable n k).trans (if_pos hk), by simp, by simp [mid, blk, State.resetWith]⟩
  · have hk : n ≤ k := by rw [← hn]; exact hk
    exact (read_rangeTable n k).trans (if_neg (by omega))
  · simp [State.LastOk, mid, blk, State.resetWith]
  · exact ⟨hc, fun _ => rfl, by simp [mid, blk, State.resetWith]⟩
  · refine ⟨rfl, (by decide : 1 ≤ 10), fun i hi => ?_, fun i hi => ?_⟩
    · have : i = 0 := by simpa [mid] using hi
      subst this; exact ⟨_, rfl⟩
    · have : 10 ≤ i := hi
      show Memory.read [(0, 0x42#8)] i = none
      rw [Memory.read, if_neg (by omega)]; rfl
  · simp [State.FlagsOk, mid, blk, State.resetWith]

theorem mid_firstTable (n : Nat) (cq : List Codeword) (h : 256 ≤ n) (h' : n ≤ 4095) :
    (mid n cq).FirstTable := by
  have hn : (BitVec.ofNat 13 n).toNat = n := by simp; omega
  refine ⟨fun k str hk hs => ?_, ?_⟩
  · have hs : Memory.read ((List.range n).map fun i => (i, [BitVec.ofNat 8 i])) k = some str := hs
    rw [read_rangeTable] at hs
    split at hs
    · cases hs; simp; omega
    · cases hs
  · show 1 + 255 ≤ (BitVec.ofNat 13 n).toNat; omega

/-- The engine's step at `mid n [n]` is a KWKWK decode. -/
theorem mid_step (n : Nat) (h : 256 ≤ n) (h' : n ≤ 4095) : ∃ t, step (mid n [BitVec.ofNat 16 n]) = .next t := by
  have e : (BitVec.ofNat 16 n).toNat = (BitVec.ofNat 13 n).toNat := by simp; omega
  refine ⟨((mid n [BitVec.ofNat 16 n]).takeCode (BitVec.ofNat 16 n)).insertDeliver [0x42#8, 0x42#8] [0x42#8, 0x42#8], ?_⟩
  refine (step_engineTurn (es := []) (.inl ⟨rfl, rfl⟩)).trans
    ((engineStep_decode (s := mid n [BitVec.ofNat 16 n]) rfl rfl).trans ?_)
  have hd : decodeCode (mid n [BitVec.ofNat 16 n]).tsize (mid n [BitVec.ofNat 16 n]).last.isEmpty (BitVec.ofNat 16 n) =
      .ok (.dKwkwk (BitVec.ofNat 16 n)) := by
    show decodeCode (BitVec.ofNat 13 n) false (BitVec.ofNat 16 n) = _
    simp only [decodeCode, e, Nat.lt_irrefl, if_false, if_true]
    rfl
  rw [hd]
  exact execDKwkwk_eq (s := mid n [BitVec.ofNat 16 n]) ⟨rfl, rfl⟩ (by simp [mid]) e

/-- With no codeword and no token, the engine waits. -/
theorem mid_wait (n : Nat) : step (mid n []) = .next (mid n []) :=
  (step_engineTurn (s := mid n []) (.inl ⟨rfl, rfl⟩)).trans (engineStep_wait (.inr ⟨rfl, .inr rfl⟩))

theorem mid_read (n k : Nat) (h : k < n) : ∃ str, Memory.read (mid n []).symtab k = some str :=
  ⟨_, (read_rangeTable n k).trans (if_pos h)⟩

theorem test_witness_DecodeOfEncode :
    (wellFormed (.dKwkwk 0xFFF#16) = true ∧ selects ⟨.zero, 4095#13, false⟩ (.dKwkwk 0xFFF#16) = true ∧
      encode (.dKwkwk 0xFFF#16) = some (.code 0xFFF#16)) ∧
    (wellFormed (.uEnd2 0xA5#8) = true ∧ selects ⟨.two, 256#13, true⟩ (.uEnd2 0xA5#8) = true ∧
      encode (.uEnd2 0xA5#8) = some (.token 0x1A5#9)) ∧
    (wellFormed (.wrRsvd 9#4 1#32) = true ∧ selects startCtx (.wrRsvd 9#4 1#32) = true ∧
      encode (.wrRsvd 9#4 1#32) = some (.host 0x1900000001#37)) := by decide

theorem test_witness_EncodeOfDecode :
    decode ⟨.zero, 256#13, false⟩ (.code 0x101#16) = .ok (.dCorrupt 0x101#16) ∧
    decode ⟨.zero, 4095#13, false⟩ (.code 0xFFE#16) = .ok (.dHit 0xFFE#16) ∧
    256 ≤ (256#13).toNat ∧ (4095#13).toNat ≤ 4095 := ⟨rfl, rfl, by decide, by decide⟩

theorem test_witness_OneCodewordClassApplies :
    (startCtx.lastEmpty = true → startCtx.tsize.toNat = 256) ∧
    (DecodeCtx.lastEmpty ⟨.zero, 4095#13, false⟩ = true → (4095#13).toNat = 256) := by decide

theorem test_witness_FullPackingBijective : (0xFFF#16).toNat ≤ 0xFFF ∧ (0#16).toNat ≤ 0xFFF := by decide

theorem test_witness_UHold1Completes : (unpack .zero 0 0).inReady ∧ (unpack .zero 0 0).uph = .zero := by decide

theorem test_witness_UHold2Completes : (unpack .one 0x41 0).inReady ∧ (unpack .one 0x41 0).uph = .one := by decide

theorem test_witness_UFullCompletes : (unpack .two 0x41 0).inReady ∧ (unpack .two 0x41 0).uph = .two := by decide

theorem test_witness_UEnd0Completes : (unpack .zero 1 2).inReady ∧ (unpack .zero 1 2).uph = .zero := by decide

theorem test_witness_UEnd1Completes : (unpack .one 0x99 0).inReady ∧ (unpack .one 0x99 0).uph = .one := by decide

theorem test_witness_UEnd2Completes : (unpack .two 0xFF 0xFF).inReady ∧ (unpack .two 0xFF 0xFF).uph = .two := by decide

/-- At the last codeword of the class, and at an output that fills OUTBUF exactly. -/
theorem test_witness_DFirstCompletes :
    let s := { blk with state := .run, cq := [0xFF#16], outLen := 9#32 }
    s.decodeReady 0xFF#16 ∧ s.tsize.toNat = 256 ∧ s.last = [] ∧ (0xFF#16).toNat < 256 ∧
    s.symRead (0xFF#16).toNat = some [0xFF#8] ∧ s.outLen.toNat + [0xFF#8].length ≤ s.outCap := by
  refine ⟨by decide, by decide, by decide, by decide, ?_, by decide⟩
  exact State.symRead_eq_some.2 ⟨by decide, (read_initTable 255).trans (if_pos (by decide)), by simp⟩

/-- At TSIZE = 4095, a new string of exactly STR_CAP bytes, an output that fills OUTBUF exactly. -/
theorem test_witness_DHitCompletes :
    let s := { dec 4095#13 [0x42#8] [0x41#8, 0x42#8] 0x100#16 with strCap := 2, outCap := 4 }
    s.decodeReady 0x100#16 ∧ s.last ≠ [] ∧ (0x100#16).toNat < s.tsize.toNat ∧
    s.symRead (0x100#16).toNat = some [0x41#8, 0x42#8] ∧ s.last.length + 1 ≤ s.strCap ∧
    s.outLen.toNat + [0x41#8, 0x42#8].length ≤ s.outCap := by decide

theorem test_witness_DKwkwkCompletes :
    let s := { dec 4095#13 [0x42#8] [0x41#8, 0x42#8] 0xFFF#16 with strCap := 2, outCap := 4 }
    s.decodeReady 0xFFF#16 ∧ s.last = [0x42#8] ∧ (0xFFF#16).toNat = s.tsize.toNat ∧
    s.last.length + 1 ≤ s.strCap ∧ s.outLen.toNat + (s.last.length + 1) ≤ s.outCap := by decide

theorem test_witness_CorruptCodewordsComplete :
    ((dec 256#13 [] [] 0x100#16).decodeReady 0x100#16 ∧ (dec 256#13 [] [] 0x100#16).tsize.toNat = 256 ∧
      (dec 256#13 [] [] 0x100#16).last = [] ∧ 256 ≤ (0x100#16).toNat) ∧
    ((dec 258#13 [0x42#8] [] 0x103#16).decodeReady 0x103#16 ∧ (dec 258#13 [0x42#8] [] 0x103#16).last ≠ [] ∧
      (dec 258#13 [0x42#8] [] 0x103#16).tsize.toNat < (0x103#16).toNat) := by decide

theorem test_witness_StringOverflowIsPrecise :
    let s := { dec 257#13 [0x42#8, 0x42#8] [] 0x100#16 with strCap := 2 }
    let u := { dec 257#13 [0x42#8, 0x42#8] [] 0x101#16 with strCap := 2 }
    (s.decodeReady 0x100#16 ∧ s.last ≠ [] ∧ (0x100#16).toNat < s.tsize.toNat ∧
      s.symRead (0x100#16).toNat = some [0x41#8, 0x42#8] ∧ s.strCap < s.last.length + 1) ∧
    (u.decodeReady 0x101#16 ∧ u.last ≠ [] ∧ (0x101#16).toNat = u.tsize.toNat ∧
      u.strCap < u.last.length + 1) := by decide

theorem test_witness_OutputOverflowIsPrecise :
    let f := { dec 256#13 [] [0#8] 0x41#16 with outCap := 1 }
    let s := { dec 257#13 [0x42#8] [0#8, 0#8] 0x100#16 with outCap := 3, strCap := 2 }
    let u := { dec 257#13 [0x42#8] [0#8, 0#8] 0x101#16 with outCap := 3, strCap := 2 }
    (f.decodeReady 0x41#16 ∧ f.tsize.toNat = 256 ∧ f.last = [] ∧ (0x41#16).toNat < 256 ∧
      f.symRead (0x41#16).toNat = some [0x41#8] ∧ f.outCap < f.outLen.toNat + [0x41#8].length) ∧
    (s.decodeReady 0x100#16 ∧ s.last ≠ [] ∧ (0x100#16).toNat < s.tsize.toNat ∧
      s.symRead (0x100#16).toNat = some [0x41#8, 0x42#8] ∧ s.last.length + 1 ≤ s.strCap ∧
      s.outCap < s.outLen.toNat + [0x41#8, 0x42#8].length) ∧
    (u.decodeReady 0x101#16 ∧ u.last ≠ [] ∧ (0x101#16).toNat = u.tsize.toNat ∧
      u.last.length + 1 ≤ u.strCap ∧ u.outCap < u.outLen.toNat + (u.last.length + 1)) := by decide

theorem test_witness_AbsentSlotReadFaults :
    let f := dec 256#13 [] [] 0xFF#16
    let s := dec 4095#13 [0x42#8] [] 0xFFE#16
    (f.decodeReady 0xFF#16 ∧ f.tsize.toNat = 256 ∧ f.last = [] ∧ (0xFF#16).toNat < 256 ∧
      f.symRead (0xFF#16).toNat = none) ∧
    (s.decodeReady 0xFFE#16 ∧ s.last ≠ [] ∧ (0xFFE#16).toNat < s.tsize.toNat ∧
      s.symRead (0xFFE#16).toNat = none) := by decide

theorem test_witness_TableResetCompletes :
    (dec 4096#13 [0x42#8] [] 0#16).state = .run ∧ (dec 4096#13 [0x42#8] [] 0#16).tsize.toNat = 4096 := by decide

theorem test_witness_DAppendCompletes :
    let s := { dec 257#13 [0x42#8] [0#8, 0#8] 0#16 with outCap := 4 }
    (s.state = .run ∧ s.outLen.toNat + [0x41#8, 0x42#8].length ≤ s.outCap) ∧
    (s.state = .run ∧ s.outCap < s.outLen.toNat + [0x41#8, 0x42#8, 0x41#8].length) := by decide

theorem test_witness_RdOutDataCompletes :
    let s := ended [0x41#8, 0x42#8]
    (State.outLen { s with outAddr := 2#32 }).toNat ≤ (2#32).toNat ∧
    (1#32).toNat < (State.outLen { s with outAddr := 1#32 }).toNat ∧
    Memory.read s.outbuf (1#32).toNat = some 0x42#8 := by decide

/-- R22, R23: STATUS at every STATE and every ERRCODE. -/
theorem test_witness_HostRegisterFields :
    State.statusReg { blk with state := .idle } = 0x00#32 ∧ State.statusReg { blk with state := .run } = 0x01#32 ∧
    State.statusReg { blk with state := .done } = 0x02#32 ∧
    State.statusReg { blk with state := .error, errCode := .corrupt } = 0x13#32 ∧
    State.statusReg { blk with state := .error, errCode := .strOvf } = 0x23#32 ∧
    State.statusReg { blk with state := .error, errCode := .outOvf } = 0x33#32 := by decide

theorem test_witness_WrCtrlCompletes :
    ((0xFFFFFFFE#32).getLsbD 0 = false ∨ blk.state = .run) ∧
    ((1#32).getLsbD 0 = false ∨ (unpack .zero 0 0).state = .run) ∧
    ((1#32).getLsbD 0 = true ∧ blk.state ≠ .run) := by decide

theorem test_witness_ResetValues : ∃ s, s = State.resetWith 1 3841 := ⟨_, rfl⟩

theorem test_witness_HardwareResetStep :
    State.events { mid 257 [] with events := [.hwReset, .engine] } = .hwReset :: [.engine] := rfl

theorem test_witness_StepRunsTheToken :
    let s := { unpack .two 1 2 with source := [0x042#9, 0x100#9] }
    (s.EngineTurn [] ∧ s.inReady ∧ s.source = 0x042#9 :: [0x100#9]) ∧
    State.EngineTurn { s with events := [.engine, .hwReset] } [.hwReset] :=
  ⟨⟨.inl ⟨rfl, rfl⟩, by decide, rfl⟩, .inr rfl⟩

theorem test_witness_StepRunsTheCodeword :
    let s := dec 257#13 [0x42#8] [] 0x101#16
    let u := dec 257#13 [] [] 0x41#16
    (s.EngineTurn [] ∧ s.decodeReady 0x101#16 ∧ decode s.ctx (.code 0x101#16) = .ok (.dKwkwk 0x101#16)) ∧
    (u.EngineTurn [] ∧ u.decodeReady 0x41#16 ∧ u.last = [] ∧ u.tsize.toNat ≠ 256) :=
  ⟨⟨.inl ⟨rfl, rfl⟩, by decide, rfl⟩, .inl ⟨rfl, rfl⟩, by decide, rfl, by decide⟩

theorem test_witness_StepRunsTheHostCommand :
    let s := { unpack .one 1 2 with events := [.host 0x0F00000000#37, .engine] }
    s.events = .host 0x0F00000000#37 :: [.engine] ∧
    decode s.ctx (.host 0x0F00000000#37) = .ok (.rdRsvd 15#4 0#32) := ⟨rfl, rfl⟩

theorem test_witness_EngineOtherwiseWaits :
    (blk.EngineTurn [] ∧ blk.state ≠ .run) ∧
    ((unpack .zero 0 0).EngineTurn [] ∧ (unpack .zero 0 0).cq = [] ∧ (unpack .zero 0 0).source = []) ∧
    (State.EngineTurn { unpack .zero 0 0 with eofSeen := true, source := [0x041#9] } [] ∧
      State.cq { unpack .zero 0 0 with eofSeen := true } = [] ∧
      State.eofSeen { unpack .zero 0 0 with eofSeen := true } = true) :=
  ⟨⟨.inl ⟨rfl, rfl⟩, by decide⟩, ⟨.inl ⟨rfl, rfl⟩, rfl, rfl⟩, .inl ⟨rfl, rfl⟩, rfl, rfl⟩

theorem test_witness_SourceSteps :
    State.events { blk with events := [.offer 0x1A5#9] } = .offer 0x1A5#9 :: [] ∧
    State.events { blk with events := [.withdraw, .engine], source := [0x041#9] } = .withdraw :: [.engine] :=
  ⟨rfl, rfl⟩

theorem test_witness_ResetMeetsInv :
    Config.legalOutCap 1 ∧ Config.legalOutCap 4294967295 ∧ Config.legalStrCap 3841 := by decide

theorem test_witness_StepKeepsInv :
    (mid 4095 [0xFFF#16]).Inv ∧ (∃ t, step (mid 4095 [0xFFF#16]) = .next t) ∧
    (mid 256 [0x100#16]).Inv ∧ ∃ t, step (mid 256 [0x100#16]) = .next t :=
  ⟨mid_inv 4095 _ (by decide) (by decide) (by decide), mid_step 4095 (by decide) (by decide),
   mid_inv 256 _ (by decide) (by decide) (by decide), mid_step 256 (by decide) (by decide)⟩

theorem test_witness_InvStepNeverStops : (mid 4095 [0xFFF#16, 0x1000#16]).Inv :=
  mid_inv 4095 _ (by decide) (by decide) (by decide)

theorem test_witness_StepKeepsMemoryForm :
    (∃ t, step (mid 300 [BitVec.ofNat 16 300]) = .next t) ∧
    Memory.wf (mid 300 []).symtab = true ∧ Memory.wf (α := Byte) (mid 300 []).outbuf = true :=
  ⟨mid_step 300 (by decide) (by decide), wf_rangeTable 300, rfl⟩

theorem test_witness_OutputIsAppendOnly :
    let s := mid 300 [BitVec.ofNat 16 300]
    s.Inv ∧ (∃ t, step s = .next t) ∧ ¬ s.NextIsReset ∧ ¬ s.NextStartsRun :=
  ⟨mid_inv 300 _ (by decide) (by decide) (by decide), mid_step 300 (by decide) (by decide),
   by rintro ⟨_, ⟨⟩⟩, by rintro ⟨_, _, ⟨_, _, ⟨⟩, _⟩, _⟩⟩

theorem test_witness_OnlyTheHostWritesItsRegisters :
    let s := { blk with events := [.host 0x1000000002#37] }
    let u := { blk with events := [.host 0x1300000005#37] }
    (step s = .next { blk with irqEn := true } ∧ State.irqEn { blk with irqEn := true } ≠ s.irqEn) ∧
    (step u = .next { blk with outAddr := 5#32 } ∧ State.outAddr { blk with outAddr := 5#32 } ≠ u.outAddr) :=
  ⟨⟨rfl, by decide⟩, rfl, by decide⟩

/-- The three ways STATE changes: a reset, a START, the end of a run. -/
theorem test_witness_StateChangesOnlyThus :
    (∃ t, step { unpack .one 1 2 with events := [.hwReset] } = .next t ∧ t.state ≠ .run) ∧
    (∃ t, step { ended [] with events := [.host 0x1000000001#37] } = .next t ∧ t.state ≠ .done) ∧
    (∃ t, step { unpack .one 1 2 with source := [0x100#9] } = .next t ∧ t.state ≠ .run) :=
  ⟨⟨_, rfl, by decide⟩, ⟨_, rfl, by decide⟩, ⟨_, rfl, by decide⟩⟩

theorem test_witness_ErrorsArePrecise :
    let s := dec 258#13 [0x42#8] [0x41#8] 0x103#16
    s.EngineTurn [] ∧ s.state ≠ .error ∧ ∃ t, step s = .next t ∧ t.state = .error :=
  ⟨.inl ⟨rfl, rfl⟩, by decide, _, rfl, rfl⟩

theorem test_witness_TruncIsTheTrailingSingle :
    (∃ t, step { unpack .one 1 2 with source := [0x100#9] } = .next t ∧ (unpack .one 1 2).trunc = false ∧
      t.trunc = true) ∧
    (∃ t, step { ended [] with trunc := true, events := [.host 0x1000000001#37] } = .next t ∧
      t.trunc = false) :=
  ⟨⟨_, rfl, rfl, rfl⟩, _, rfl, rfl⟩

theorem test_witness_TokensAreTakenOneByOne :
    (∃ t, step { unpack .one 1 2 with source := [0x041#9] } = .next t) ∧
    ∀ es, State.events { unpack .one 1 2 with source := [0x041#9] } ≠ .withdraw :: es :=
  ⟨⟨_, rfl⟩, fun _ h => by cases h⟩

theorem test_witness_TableGrowth :
    (mid 4095 [0xFFF#16]).Inv ∧ (mid 4095 [0xFFF#16]).EngineTurn [] ∧ ∃ t, step (mid 4095 [0xFFF#16]) = .next t :=
  ⟨mid_inv 4095 _ (by decide) (by decide) (by decide), .inl ⟨rfl, rfl⟩,
   mid_step 4095 (by decide) (by decide)⟩

/-- The first clause at a block after reset, the third at the last code of the table. -/
theorem test_witness_FirstTableStringsAreShort_start_and_table :
    blk.state ≠ .run ∧ (mid 4095 []).Inv ∧ (mid 4095 []).FirstTable ∧
    ∃ str, Memory.read (mid 4095 []).symtab 4094 = some str :=
  ⟨by decide, mid_inv 4095 _ (by decide) (by decide) (by decide), mid_firstTable 4095 _ (by decide) (by decide),
   mid_read 4095 4094 (by decide)⟩

/-- `mid` where the next step is a host access. -/
def midHost : State := { mid 300 [] with events := [.host 0x1300000005#37] }

/-- The second clause at TSIZE = 4094, at TSIZE = 4095 with a step that leaves TSIZE alone, and at a host access. -/
theorem test_witness_FirstTableStringsAreShort_step :
    ((mid 4094 [BitVec.ofNat 16 4094]).Inv ∧ (mid 4094 [BitVec.ofNat 16 4094]).FirstTable ∧
      (∃ t, step (mid 4094 [BitVec.ofNat 16 4094]) = .next t) ∧ ∀ t, ¬ ResetsTable (mid 4094 [BitVec.ofNat 16 4094]) t) ∧
    ((mid 4095 []).Inv ∧ (mid 4095 []).FirstTable ∧ step (mid 4095 []) = .next (mid 4095 []) ∧
      ¬ ResetsTable (mid 4095 []) (mid 4095 [])) ∧
    (midHost.Inv ∧ midHost.FirstTable ∧ (∃ t, step midHost = .next t) ∧ ∀ t, ¬ ResetsTable midHost t) :=
  ⟨⟨mid_inv 4094 _ (by decide) (by decide) (by decide), mid_firstTable 4094 _ (by decide) (by decide),
    mid_step 4094 (by decide) (by decide), fun _ h => absurd (congrArg BitVec.toNat h.2.1) (by decide)⟩,
   ⟨mid_inv 4095 _ (by decide) (by decide) (by decide), mid_firstTable 4095 _ (by decide) (by decide),
    mid_wait 4095, fun h => absurd (congrArg BitVec.toNat h.2.2) (by decide)⟩,
   mid_inv 300 [] (by decide) (by decide) (by decide), mid_firstTable 300 [] (by decide) (by decide),
   ⟨_, rfl⟩, fun _ h => absurd (congrArg BitVec.toNat h.2.1) (by decide)⟩

theorem test_witness_UnreachableCodesAreCorrupt :
    ((mid 4094 [0xFFF#16]).Inv ∧ (mid 4094 [0xFFF#16]).decodeReady 0xFFF#16 ∧ (0xFFF#16).toNat = 4095 ∧
      (mid 4094 [0xFFF#16]).tsize.toNat ≠ 4095) ∧
    ((mid 256 [0x1000#16]).Inv ∧ (mid 256 [0x1000#16]).decodeReady 0x1000#16 ∧ 0xFFF < (0x1000#16).toNat) :=
  ⟨⟨mid_inv 4094 _ (by decide) (by decide) (by decide), ⟨rfl, rfl⟩, rfl, by decide⟩,
   ⟨mid_inv 256 _ (by decide) (by decide) (by decide), ⟨rfl, rfl⟩, by decide⟩⟩

theorem test_witness_HiddenStateIsInvisible :
    let s := { mid 257 [] with events := [.host 0x0100000000#37] }
    let t := { s with ub1 := 0x99#8, uph := .one, last := [0x43#8] }
    SameToHost s t ∧ s.events = .host 0x0100000000#37 :: [] ∧ t.events = .host 0x0100000000#37 :: [] ∧
    (∃ s', step s = .next s') ∧ (∃ t', step t = .next t') ∧ cmdWrite 0x0100000000#37 = false :=
  ⟨⟨rfl, rfl, rfl, rfl, rfl, rfl, rfl, rfl, rfl, rfl, fun _ _ => rfl⟩, rfl, rfl, ⟨_, rfl⟩, ⟨_, rfl⟩, rfl⟩

theorem test_witness_RunsAreIndependentOfHistory :
    (blk.state ≠ .run ∧ (ended [0x41#8]).state ≠ .run ∧ (ended [0x41#8]).source = blk.source ∧
      (ended [0x41#8]).events = blk.events ∧ (ended [0x41#8]).outCap = blk.outCap ∧
      (ended [0x41#8]).strCap = blk.strCap) ∧
    ((mid 300 [0x41#16]).Inv ∧ SameRun (mid 300 [0x41#16]) { mid 300 [0x41#16] with outAddr := 5#32, irqEn := true }) :=
  ⟨⟨by decide, by decide, rfl, rfl, rfl, rfl⟩, mid_inv 300 _ (by decide) (by decide) (by decide),
   rfl, rfl, rfl, rfl, rfl, rfl, rfl, rfl, rfl, rfl, rfl, rfl, rfl, rfl, rfl, rfl, rfl, rfl, rfl, fun _ _ => rfl⟩

/-- Scenario B, and a run that ends in an error: `00 41` and `10 00`. -/
theorem test_witness_RunDecodesTheStream :
    let s := { blk with events := [.host (mkCmd true 0 1#32)], source := [0x000#9, 0x041#9, 0x100#9, 0x041#9] }
    let u := { blk with events := [.host (mkCmd true 0 1#32)], source := [0x010#9, 0x000#9, 0x100#9] }
    (s.ParamsOk ∧ s.state ≠ .run ∧ (1#32).getLsbD 0 = true ∧ s.events = [.host (mkCmd true 0 1#32)] ∧
      s.source = [0x00#8, 0x41#8].map byteToken ++ endToken 0#8 :: [0x041#9]) ∧
    (u.ParamsOk ∧ u.state ≠ .run ∧ (1#32).getLsbD 0 = true ∧ u.events = [.host (mkCmd true 0 1#32)] ∧
      u.source = [0x10#8, 0x00#8].map byteToken ++ endToken 0#8 :: []) :=
  ⟨⟨⟨by decide, by decide⟩, by decide, rfl, rfl, by decide⟩, ⟨by decide, by decide⟩, by decide, rfl, rfl, by decide⟩

end Sys2Proof.Tests
end

section
/-! The steps of the input source (spec/00_scope.md R10, R39; spec/42_driver.md R197). -/

namespace Sys2Proof.Machine

/-- An offer is a step of the source alone: the engine does not see the token before its own turn (R10, R39). -/
theorem step_offer {s : State} {t : Token} {es : List Event} (h : s.events = .offer t :: es) :
    step s = .next { s with events := es, source := s.source ++ [t] } := by
  rw [step_eq, h]

/-- A withdrawal reaches only the tokens still offered, never what the block has consumed (R197, R292). -/
theorem step_withdraw {s : State} {es : List Event} (h : s.events = .withdraw :: es) :
    step s = .next { s with events := es, source := [] } := by
  rw [step_eq, h]

/-- Settles O36: each clause is the step's equation at the event of the source. -/
theorem sourceSteps : Obligations.SourceSteps :=
  ⟨fun _ _ _ h => step_offer h, fun _ _ h => step_withdraw h⟩

end Sys2Proof.Machine
end

section
/-! One inversion lemma for the step of the whole machine, and what an engine turn can do to each part of the state (spec/00_scope.md R10; spec/42_driver.md R191). -/

namespace Sys2Proof.Machine

/-- The word a host read of a register index receives (R43 to R53). -/
def State.hostWord (s : State) (idx : RegIdx) : Word :=
  match idx.toNat with
  | 0 => s.ctrlReg
  | 1 => s.statusReg
  | 2 => s.outLen
  | 3 => s.outAddr
  | 4 => s.outDataReg
  | 5 => s.tableSizeReg
  | 6 => s.codeCount
  | 7 => s.lastCodeReg
  | 8 => s.byteCount
  | _ => 0#32

/-- A host read access answers the word of its index, and changes nothing else (R210). -/
theorem exec_host_read {h : HostCmd} (hw : cmdWrite h = false) (s : State) :
    exec (decodeHost h) s = .next (s.hostReceives (s.hostWord (cmdIdx h))) := by
  unfold decodeHost State.hostWord
  rw [hw]
  generalize (cmdIdx h).toNat = k
  rcases k with _ | _ | _ | _ | _ | _ | _ | _ | _ | k <;> rfl

/-- What the next step of the machine can do, by the agent that takes it (R10). -/
inductive StepCase (s : State) : State → Prop where
  /-- The engine's turn (R191). -/
  | engine {t : State} (es : List Event) (turn : s.EngineTurn es)
      (h : EngineStep { s with events := es } (.next t)) : StepCase s t
  /-- The source offers a token (R39). -/
  | offer (tok : Token) (es : List Event) (he : s.events = .offer tok :: es) :
      StepCase s { s with events := es, source := s.source ++ [tok] }
  /-- The host withdraws the offered tokens (R197). -/
  | withdraw (es : List Event) (he : s.events = .withdraw :: es) :
      StepCase s { s with events := es, source := [] }
  /-- A host read (R210). -/
  | read (h : HostCmd) (es : List Event) (he : s.events = .host h :: es) (hw : cmdWrite h = false) :
      StepCase s (State.hostReceives { s with events := es } (s.hostWord (cmdIdx h)))
  /-- A host write without effect (R223, R225). -/
  | ignored (h : HostCmd) (es : List Event) (he : s.events = .host h :: es) (hw : cmdWrite h = true) :
      StepCase s { s with events := es }
  /-- A write of CTRL that starts no run (R212). -/
  | wrCtrl (v : Word) (es : List Event) (hn : s.NextWritesCtrl v)
      (hs : v.getLsbD 0 = false ∨ s.state = .run) :
      StepCase s { s with events := es, irqEn := v.getLsbD 1 }
  /-- A write of CTRL that starts a run (R213). -/
  | start (v : Word) (es : List Event) (hn : s.NextWritesCtrl v) (hv : v.getLsbD 0 = true)
      (hr : s.state ≠ .run) :
      StepCase s (State.start { s with events := es, irqEn := v.getLsbD 1 })
  /-- A write of OUT_ADDR (R217). -/
  | wrOutAddr (v : Word) (es : List Event) (hn : s.NextWritesOutAddr v) :
      StepCase s { s with events := es, outAddr := v }
  /-- A hardware reset (R280). -/
  | reset (es : List Event) (he : s.events = .hwReset :: es) :
      StepCase s (State.hardwareReset { s with events := es })

/-- A write of CTRL starts a run exactly when bit 0 is set and no run is in progress (R212, R213). -/
theorem stepCase_of_wrCtrl {s : State} {v : Word} (es : List Event) (hn : s.NextWritesCtrl v) :
    StepCase s (if v.getLsbD 0 then State.start { s with events := es, irqEn := v.getLsbD 1 }
      else { s with events := es, irqEn := v.getLsbD 1 }) := by
  by_cases hv : v.getLsbD 0 = true
  · rw [if_pos hv]
    by_cases hr : s.state = .run
    · have ignored : State.start { s with events := es, irqEn := v.getLsbD 1 } =
          { s with events := es, irqEn := v.getLsbD 1 } := State.start_of_run hr
      rw [ignored]
      exact .wrCtrl v es hn (.inr hr)
    · exact .start v es hn hv hr
  · rw [if_neg hv]
    exact .wrCtrl v es hn (.inl (by simpa using hv))

/-- A host access that answers a next state is one of the host's cases. -/
theorem stepCase_of_host {s t : State} {h : HostCmd} {es : List Event} (he : s.events = .host h :: es)
    (hx : exec (decodeHost h) { s with events := es } = .next t) : StepCase s t := by
  rcases exec_host_cases h { s with events := es } with
    ⟨hw, -⟩ | ⟨hw, e⟩ | ⟨hw, hi, e⟩ | ⟨hw, hi, e⟩
  · obtain rfl := Host.Outcome.next.inj ((exec_host_read hw _).symm.trans hx)
    exact .read h es he hw
  · obtain rfl := Host.Outcome.next.inj (e.symm.trans hx)
    exact .ignored h es he hw
  · have hn : s.NextWritesCtrl (cmdData h) := ⟨h, es, he, hw, hi, rfl⟩
    obtain rfl := Host.Outcome.next.inj (e.symm.trans hx)
    exact stepCase_of_wrCtrl es hn
  · obtain rfl := Host.Outcome.next.inj (e.symm.trans hx)
    exact .wrOutAddr _ es ⟨h, es, he, hw, hi, rfl⟩

/-- In the engine's turn the step is one of the engine's cases. -/
theorem stepCase_of_engineTurn {s t : State} {es : List Event} (turn : s.EngineTurn es)
    (h : step s = .next t) : StepCase s t :=
  .engine es turn (by rw [← h, step_engineTurn turn]; exact engineStep_cases _)

/-- Whatever next state a step answers is one of the cases of `StepCase`. -/
theorem step_cases {s t : State} (h : step s = .next t) : StepCase s t := by
  cases he : s.events with
  | nil => exact stepCase_of_engineTurn (.inl ⟨he, rfl⟩) h
  | cons e es =>
    cases e with
    | engine => exact stepCase_of_engineTurn (.inr he) h
    | offer tok =>
      obtain rfl := Host.Outcome.next.inj ((step_offer he).symm.trans h)
      exact .offer tok es he
    | withdraw =>
      obtain rfl := Host.Outcome.next.inj ((step_withdraw he).symm.trans h)
      exact .withdraw es he
    | host c =>
      rw [step_eq, he] at h
      exact stepCase_of_host he h
    | hwReset =>
      rw [step_eq, he] at h
      obtain rfl := Host.Outcome.next.inj h
      exact .reset es he

end Sys2Proof.Machine
end

section
/-! What an engine turn leaves unchanged, and the few ways in which it changes the rest. -/

namespace Sys2Proof.Machine

/-- An insertion, with the table reset it may cause, writes SYMTAB and TSIZE alone (R62, R156). -/
theorem State.insert_eq (s : State) (new : Str) :
    ∃ tab n, (s.symWrite new).resetIfFull = { s with symtab := tab, tsize := n } := by
  unfold State.resetIfFull
  split <;> exact ⟨_, _, rfl⟩

/-- An engine turn writes none of the host's registers (R80). -/
theorem EngineStep.keeps_hostRegs {s t : State} (h : EngineStep s (.next t)) :
    t.irqEn = s.irqEn ∧ t.outAddr = s.outAddr := by
  cases h with
  | first => simp [State.commit_eq]
  | insert => simp [State.commit_eq]
  | _ => exact ⟨rfl, rfl⟩

/-- STATE after a commit: kept, or DONE when CQ is drained after END (R193). -/
theorem State.commit_state_cases (s : State) (result : Str) :
    (s.commit result).state = s.state ∨ (s.commit result).state = .done := by
  rw [State.commit_eq]
  exact (ite_eq_or_eq _ _ _).symm

/-- STATE in an engine turn: kept, or the end of a run (R193, R254). -/
theorem EngineStep.state_cases {s t : State} (h : EngineStep s (.next t)) :
    t.state = s.state ∨ (s.state = .run ∧ (t.state = .done ∨ t.state = .error)) := by
  cases h with
  | end0 _ _ hin | end1 _ _ hin => exact .inr ⟨hin.1, .inl rfl⟩
  | err _ _ _ hrun => exact .inr ⟨hrun, .inr rfl⟩
  | first c _ result hrun =>
    exact ((s.takeCode c).commit_state_cases result).imp id fun hd => ⟨hrun, .inl hd⟩
  | insert c _ new result hrun =>
    obtain ⟨tab, n, heq⟩ := (s.takeCode c).insert_eq new
    rw [heq]
    exact (State.commit_state_cases _ result).imp id fun hd => ⟨hrun, .inl hd⟩
  | _ => exact .inl rfl

/-- TRUNC in an engine turn: kept, or set by the END token after one byte of a chunk (R126). -/
theorem EngineStep.trunc_cases {s t : State} (h : EngineStep s (.next t)) :
    t.trunc = s.trunc ∨ (t.trunc = true ∧ s.inReady ∧ s.uph = .one ∧
      (∃ data, s.source = endToken data :: t.source) ∧ t.state = .done ∧ t.errCode = s.errCode) := by
  cases h with
  | end1 data ts hin hs hp => exact .inr ⟨rfl, hin, hp, ⟨data, hs⟩, rfl, rfl⟩
  | first => simp [State.commit_eq]
  | insert => simp [State.commit_eq]
  | _ => exact .inl rfl

/-- The source in an engine turn: kept, or the head consumed with in_ready = 1 (R120). -/
theorem EngineStep.source_cases {s t : State} (h : EngineStep s (.next t)) :
    t.source = s.source ∨ (s.inReady ∧ ∃ tok, s.source = tok :: t.source) := by
  cases h with
  | wait => exact .inl rfl
  | err => exact .inl rfl
  | first => simp [State.commit_eq]
  | insert => simp [State.commit_eq]
  | hold1 _ _ hin hs | hold2 _ _ hin hs | full _ _ hin hs | end0 _ _ hin hs | end1 _ _ hin hs
  | end2 _ _ hin hs => exact .inr ⟨hin, _, hs⟩

/-- The output in an engine turn: kept, or a string that fits appended at OUT_LEN (R65, R192). -/
theorem EngineStep.output_cases {s t : State} (h : EngineStep s (.next t)) :
    (t.outbuf = s.outbuf ∧ t.outLen = s.outLen) ∨
    ∃ r : Str, s.outLen.toNat + r.length ≤ s.outCap ∧
      t.outbuf = Memory.writeStr s.outbuf s.outLen.toNat r ∧
      t.outLen = s.outLen + BitVec.ofNat 32 r.length := by
  cases h with
  | first _ _ r _ _ _ _ _ ho => exact .inr ⟨r, ho, by simp [State.commit_eq]⟩
  | insert _ _ _ r _ _ _ _ _ _ ho => exact .inr ⟨r, ho, by simp [State.commit_eq]⟩
  | _ => exact .inl ⟨rfl, rfl⟩

end Sys2Proof.Machine
end

section
/-! The invariants between steps (spec/10_state.md R38): at reset, and kept by every step of every agent. -/

namespace Sys2Proof.Machine

/-- The invariants hold after hardware reset, whatever the block held before (R55). -/
theorem inv_resetWith {outCap strCap : Nat} (ho : Config.legalOutCap outCap)
    (hs : Config.legalStrCap strCap) : (State.resetWith outCap strCap).Inv := by
  refine ⟨⟨ho, hs⟩, tableOk_init _ hs rfl rfl, ?_, ?_, ?_, ?_⟩
  · simp [State.LastOk, State.resetWith]
  · simp [State.QueueOk, State.resetWith]
  · simp [State.OutputOk, State.resetWith, Memory.wf]
  · simp [State.FlagsOk, State.resetWith]

/-- A string that SymRead answers is non-empty and at most STR_CAP long (R36, R161). -/
theorem State.TableOk.symRead_length {s : State} (h : s.TableOk) {k : Nat} {str : Str}
    (hr : s.symRead k = some str) : 1 ≤ str.length ∧ str.length ≤ s.strCap := by
  obtain ⟨-, -, -, -, present, -⟩ := h
  obtain ⟨hk, hread, -⟩ := State.symRead_eq_some.1 hr
  obtain ⟨str', hread', hlen⟩ := present k hk
  obtain rfl := Option.some.inj (hread.symm.trans hread')
  exact hlen

/-- No error and no TRUNC while a run is in progress (R38 item 8). -/
theorem State.FlagsOk.of_run {s : State} (h : s.FlagsOk) (hr : s.state = .run) :
    s.errCode = .noError ∧ s.trunc = false := by
  simpa [State.FlagsOk, hr] using h

/-- LAST and CODE_COUNT after a result that fits is committed (R34, R38 item 4). -/
theorem lastOk_commit {s : State} {result : Str} (hcap : s.outCap ≤ 4294967295)
    (hcount : s.codeCount.toNat ≤ s.outLen.toNat) (h1 : 1 ≤ result.length)
    (h2 : result.length ≤ s.strCap) (ho : s.outLen.toNat + result.length ≤ s.outCap) :
    (s.commit result).LastOk := by
  have hne : result ≠ [] := List.ne_nil_of_length_pos h1
  have hcc := codeCount_succ hcount _ h1 ho hcap
  have hlen := outLen_add ho hcap
  have hcc0 : s.codeCount + 1#32 ≠ 0#32 := fun h0 => by simp [h0] at hcc
  rw [State.commit_eq]
  refine ⟨fun h => absurd h hne, iff_of_false hne hcc0, h2, ?_⟩
  show (s.codeCount + 1#32).toNat ≤ (s.outLen + BitVec.ofNat 32 result.length).toNat
  omega

/-- CQ and UPH after a commit: END with CQ drained has ended the run (R38 items 5 and 6, R193). -/
theorem queueOk_commit {s : State} {result : Str} (hlen : s.cq.length ≤ 2)
    (hph : s.cq ≠ [] → s.uph = .zero) : (s.commit result).QueueOk := by
  rw [State.commit_eq]
  refine ⟨hlen, hph, fun (he : s.eofSeen = true) => ?_⟩
  by_cases hc : s.cq = []
  · exact .inr (by simp [hc, he])
  · exact .inl hc

/-- The flags after a commit (R38 item 8). -/
theorem flagsOk_commit {s : State} {result : Str} (h : s.FlagsOk) (hr : s.state = .run) :
    (s.commit result).FlagsOk := by
  obtain ⟨he, ht⟩ := h.of_run hr
  have hkeep : (s.commit result).errCode = .noError ∧ (s.commit result).trunc = false := by
    simp [State.commit_eq, he, ht]
  have hst : (s.commit result).state ≠ .error := by
    rcases s.commit_state_cases result with h' | h' <;> simp [h', hr]
  exact ⟨iff_of_false (fun hne => hne hkeep.1) hst, fun htr => by simp [hkeep.2] at htr⟩

/-- A successful decode step keeps the invariants: the head of CQ is taken, SYMTAB and TSIZE are as R38
says, and a result that fits is committed (R151). -/
theorem inv_commit {s : State} {c : Codeword} {tab : Memory Str} {n : BitVec 13} {result : Str}
    (h : s.Inv) (hr : s.state = .run) (ht : State.TableOk { s with symtab := tab, tsize := n })
    (hlen : 1 ≤ result.length ∧ result.length ≤ s.strCap)
    (ho : s.outLen.toNat + result.length ≤ s.outCap) :
    (State.commit { s.takeCode c with symtab := tab, tsize := n } result).Inv := by
  obtain ⟨hp, -, ⟨-, -, -, hcount⟩, ⟨hq, hph, -⟩, hout, hf⟩ := h
  have hcap := hp.1.2
  refine ⟨?_, ?_, lastOk_commit hcap hcount hlen.1 hlen.2 ho, queueOk_commit ?_ ?_, ?_,
    flagsOk_commit hf hr⟩
  · rw [State.commit_eq]; exact hp
  · rw [State.commit_eq]; exact ht
  · exact (List.tail_sublist s.cq).length_le.trans hq
  · exact fun hne => hph fun h0 => hne (by simp [h0])
  · rw [State.commit_eq]; exact outputOk_append result hout hcap ho rfl rfl rfl

/-- An error of a decode step keeps the invariants (R254, R255). -/
theorem inv_err {s : State} {c : Codeword} {cs : List Codeword} {e : ErrCode} (h : s.Inv)
    (hr : s.state = .run) (hc : s.cq = c :: cs) (he : e ≠ .noError) :
    State.Inv { s with cq := cs, lastCode := c, state := .error, errCode := e } := by
  obtain ⟨hp, ht, hl, ⟨hq, hph, -⟩, hout, hf⟩ := h
  rw [hc] at hq hph
  refine ⟨hp, ht, hl, ⟨?_, fun _ => hph (by simp), fun _ => .inr (by simp)⟩, hout,
    iff_of_true he rfl, fun htr => ?_⟩
  · exact (Nat.le_succ _).trans hq
  · exact absurd ((hf.of_run hr).2.symm.trans htr) Bool.false_ne_true

/-- The result of an insertion, an entry or the new string itself, is non-empty and at most STR_CAP long (R159). -/
theorem insert_result_length {s : State} {c : Codeword} {new result : Str} (ht : s.TableOk)
    (hr : (s.symRead c.toNat = some result ∧ new = s.last ++ result.take 1) ∨
      (c.toNat = s.tsize.toNat ∧ result = new ∧ new = s.last ++ s.last.take 1))
    (hn : new.length = s.last.length + 1) (hs : new.length ≤ s.strCap) :
    1 ≤ result.length ∧ result.length ≤ s.strCap := by
  rcases hr with ⟨hread, -⟩ | ⟨-, rfl, -⟩
  · exact ht.symRead_length hread
  · exact ⟨by omega, hs⟩

/-- An engine turn keeps the invariants (R38). -/
theorem EngineStep.keeps_inv {s t : State} (h : EngineStep s (.next t)) (hi : s.Inv) : t.Inv := by
  have hall := hi
  obtain ⟨hp, ht, hl, ⟨hq, hph, heof⟩, hout, hf⟩ := hi
  cases h with
  | wait => exact hall
  | hold1 _ _ hin | hold2 _ _ hin =>
    obtain ⟨-, hcq, -⟩ := hin
    exact ⟨hp, ht, hl, ⟨hq, fun hne => absurd hcq hne, heof⟩, hout, hf⟩
  | full =>
    exact ⟨hp, ht, hl, ⟨Nat.le_refl 2, fun _ => rfl, fun _ => .inl (by simp)⟩, hout, hf⟩
  | end2 => exact ⟨hp, ht, hl, ⟨Nat.le_succ 1, fun _ => rfl, fun _ => .inl (by simp)⟩, hout, hf⟩
  | end0 _ _ hin =>
    have he := (hf.of_run hin.1).1
    exact ⟨hp, ht, hl, ⟨hq, hph, fun _ => .inr (by simp)⟩, hout,
      iff_of_false (fun hne => hne he) (by simp), fun _ => rfl⟩
  | end1 _ _ hin =>
    have he := (hf.of_run hin.1).1
    exact ⟨hp, ht, hl, ⟨hq, fun _ => rfl, fun _ => .inr (by simp)⟩, hout,
      iff_of_false (fun hne => hne he) (by simp), fun _ => rfl⟩
  | err c cs e hrun hc he => exact inv_err hall hrun hc he
  | first c cs result hrun hc _ _ hr ho => exact inv_commit hall hrun ht (ht.symRead_length hr) ho
  | insert c cs new result hrun hc _ hr hn hs ho =>
    have hlen := insert_result_length ht hr hn hs
    have htab : ((s.takeCode c).symWrite new).resetIfFull.TableOk :=
      tableOk_insert (s := s.takeCode c) ht (by omega) hs hp.2
    obtain ⟨tab, n, heq⟩ := (s.takeCode c).insert_eq new
    rw [heq] at htab ⊢
    exact inv_commit hall hrun htab hlen ho

/-- A START that finds no run gives a state that meets the invariants, from one that does (R213). -/
theorem State.Inv.start {s : State} (h : s.Inv) (hr : s.state ≠ .run) : s.start.Inv := by
  obtain ⟨hp, -, -, -, ⟨hw, -, -, hn⟩, -⟩ := h
  exact inv_start hp hw hn hr

/-- Settles O38, by the agent that takes the step; what the world, the host's reads and the host's own
registers write is not in the invariants. -/
theorem stepKeepsInv : Obligations.StepKeepsInv := by
  intro s t hi h
  cases step_cases h with
  | engine es turn he => exact he.keeps_inv (s := { s with events := es }) hi
  | start v es hn hv hr =>
    exact State.Inv.start (s := { s with events := es, irqEn := v.getLsbD 1 }) hi hr
  | reset es he => exact inv_resetWith hi.1.1 hi.1.2
  | _ => exact hi

/-- Settles O37: the reset values are the run-scoped elements at their first values over the initial table. -/
theorem resetMeetsInv : Obligations.ResetMeetsInv :=
  ⟨fun _ _ ho hs => inv_resetWith ho hs, inv_resetWith (by decide) (by decide)⟩

end Sys2Proof.Machine
end

section
/-! What a step of any agent can do to the output, the host's registers, STATE, TRUNC and the source. -/

namespace Sys2Proof.Machine

/-- An append that fits leaves every byte below OUT_LEN as it was (R65, R78). -/
theorem outputGrows_append {s t : State} {r : Str} (hcap : s.outCap ≤ 4294967295)
    (ho : s.outLen.toNat + r.length ≤ s.outCap)
    (h1 : t.outbuf = Memory.writeStr s.outbuf s.outLen.toNat r)
    (h2 : t.outLen = s.outLen + BitVec.ofNat 32 r.length) : OutputGrows s t := by
  have hlen : t.outLen.toNat = s.outLen.toNat + r.length := by rw [h2, outLen_add ho hcap]
  refine ⟨by omega, fun i hi => State.memRead_eq_of_read hi (by omega) ?_⟩
  rw [h1, Memory.read_writeStr, if_neg (by omega)]

/-- A step that writes neither OUTBUF nor OUT_LEN keeps the output. -/
theorem outputGrows_of_same {s t : State} (h1 : t.outbuf = s.outbuf) (h2 : t.outLen = s.outLen) :
    OutputGrows s t :=
  ⟨by rw [h2], fun i _ => State.memRead_congr h1 h2 i⟩

/-- Settles O41: only the engine appends, and START and reset, which begin the output anew, are excluded. -/
theorem outputIsAppendOnly : Obligations.OutputIsAppendOnly := by
  intro s t hi h hnr hns
  cases step_cases h with
  | engine es turn he =>
    rcases he.output_cases with ⟨h1, h2⟩ | ⟨r, ho, h1, h2⟩
    · exact outputGrows_of_same h1 h2
    · exact outputGrows_append hi.1.1.2 ho h1 h2
  | start v es hn hv hr => exact absurd ⟨hr, v, hn, hv⟩ hns
  | reset es he => exact absurd ⟨es, he⟩ hnr
  | _ => exact outputGrows_of_same rfl rfl

/-- START writes none of the host's registers and takes no token (R213). -/
theorem State.start_frame {s : State} (h : s.state ≠ .run) :
    s.start.irqEn = s.irqEn ∧ s.start.outAddr = s.outAddr ∧ s.start.source = s.source ∧
      s.start.state = .run ∧ s.start.trunc = false := by
  rw [State.start_of_not_run h]
  exact ⟨rfl, rfl, rfl, rfl, rfl⟩

/-- Settles O42: of all agents' steps only the two writes and the reset touch the two registers. -/
theorem onlyTheHostWritesItsRegisters : Obligations.OnlyTheHostWritesItsRegisters := by
  intro s t h
  cases step_cases h with
  | engine es turn he =>
    obtain ⟨h1, h2⟩ := he.keeps_hostRegs
    exact ⟨fun hne => absurd h1 hne, fun hne => absurd h2 hne⟩
  | wrCtrl v es hn => exact ⟨fun _ => .inr ⟨v, hn, rfl⟩, fun hne => absurd rfl hne⟩
  | start v es hn hv hr =>
    obtain ⟨h1, h2, -⟩ := State.start_frame (s := { s with events := es, irqEn := v.getLsbD 1 }) hr
    exact ⟨fun _ => .inr ⟨v, hn, h1⟩, fun hne => absurd h2 hne⟩
  | wrOutAddr v es hn => exact ⟨fun hne => absurd rfl hne, fun _ => .inr ⟨v, hn, rfl⟩⟩
  | reset es he => exact ⟨fun _ => .inl ⟨es, he⟩, fun _ => .inl ⟨es, he⟩⟩
  | _ => exact ⟨fun hne => absurd rfl hne, fun hne => absurd rfl hne⟩

/-- Settles O43: the three ways are a reset, a START, and the end of a run in the engine's turn. -/
theorem stateChangesOnlyThus : Obligations.StateChangesOnlyThus := by
  intro s t h hne
  cases step_cases h with
  | engine es turn he =>
    obtain ⟨hrun, hend⟩ := he.state_cases.resolve_left hne
    exact .inr (.inr ⟨hrun, ⟨es, turn⟩, hend⟩)
  | start v es hn hv hr =>
    obtain ⟨-, -, -, hrun, -⟩ :=
      State.start_frame (s := { s with events := es, irqEn := v.getLsbD 1 }) hr
    exact .inr (.inl ⟨⟨hr, v, hn, hv⟩, hrun⟩)
  | reset es he => exact .inl ⟨⟨es, he⟩, rfl⟩
  | _ => exact absurd rfl hne

/-- TRUNC in a step of any agent: kept, set by a trailing single in the engine's turn, or cleared by a START
or a reset (R24, R126). -/
theorem step_trunc_cases {s t : State} (h : step s = .next t) :
    t.trunc = s.trunc ∨
    ((∃ es, s.EngineTurn es) ∧ t.trunc = true ∧ s.inReady ∧ s.uph = .one ∧
      (∃ data, s.source = endToken data :: t.source) ∧ t.state = .done ∧ t.errCode = s.errCode) ∨
    (t.trunc = false ∧ (s.NextIsReset ∨ s.NextStartsRun)) := by
  cases step_cases h with
  | engine es turn he => exact he.trunc_cases.imp id fun hset => .inl ⟨⟨es, turn⟩, hset⟩
  | start v es hn hv hr =>
    obtain ⟨-, -, -, -, ht⟩ :=
      State.start_frame (s := { s with events := es, irqEn := v.getLsbD 1 }) hr
    exact .inr (.inr ⟨ht, .inr ⟨hr, v, hn, hv⟩⟩)
  | reset es he => exact .inr (.inr ⟨rfl, .inl ⟨es, he⟩⟩)
  | _ => exact .inl rfl

/-- Settles O45, by the three things a step can do to TRUNC. -/
theorem truncIsTheTrailingSingle : Obligations.TruncIsTheTrailingSingle := by
  intro s t h
  rcases step_trunc_cases h with hk | ⟨turn, hset, hin, hph, hsrc, hdone, herr⟩ | ⟨hclr, hwhy⟩
  · exact ⟨fun h0 h1 => by simp [hk, h0] at h1, fun h1 h0 => by simp [hk, h1] at h0⟩
  · exact ⟨fun _ _ => ⟨turn, hin, hph, hsrc, hdone, herr⟩, fun _ h0 => by simp [hset] at h0⟩
  · exact ⟨fun _ h1 => by simp [hclr] at h1, fun _ _ => hwhy⟩

/-- Settles O46: an offer adds behind, the engine takes the head, and nothing but a withdrawal else touches
the source. -/
theorem tokensAreTakenOneByOne : Obligations.TokensAreTakenOneByOne := by
  intro s t h hnw
  have kept {u : State} (hu : u.source = s.source) : ∃ more, u.source = s.source ++ more :=
    ⟨[], by rw [hu, List.append_nil]⟩
  cases step_cases h with
  | engine es turn he =>
    exact he.source_cases.imp kept fun ⟨hin, htok⟩ => ⟨hin, ⟨es, turn⟩, htok⟩
  | offer tok es he => exact .inl ⟨[tok], rfl⟩
  | withdraw es he => exact absurd he (hnw es)
  | start v es hn hv hr =>
    obtain ⟨-, -, hsrc, -⟩ :=
      State.start_frame (s := { s with events := es, irqEn := v.getLsbD 1 }) hr
    exact .inl (kept hsrc)
  | _ => exact .inl (kept rfl)

end Sys2Proof.Machine
end

section
/-! What the host sees: the register words, the interrupt, and the state after reset (spec/10_state.md R42 to R55). -/

namespace Sys2Proof.Machine

/-- MemRead at any index, in two states with the same output: both read the same byte below OUT_LEN and 0
elsewhere (R66). -/
theorem memRead_eq_of_sameOutput {s t : State} (hlen : t.outLen = s.outLen)
    (hmem : ∀ i, i < s.outLen.toNat → t.memRead i = s.memRead i) (i : Nat) :
    t.memRead i = s.memRead i := by
  by_cases hi : i < s.outLen.toNat
  · exact hmem i hi
  · rw [State.memRead_of_ge (s := s) (Nat.not_lt.1 hi),
      State.memRead_of_ge (by rw [hlen]; exact Nat.not_lt.1 hi)]

/-- The word of every register index and irq are functions of what `SameToHost` keeps equal (R43). -/
theorem SameToHost.hostWord_eq {s t : State} (h : SameToHost s t) (idx : RegIdx) :
    t.hostWord idx = s.hostWord idx ∧ t.irq = s.irq := by
  obtain ⟨hst, herr, htr, hirq, haddr, hlen, hcc, hbc, hlc, hts, hmem⟩ := h
  have hdata := memRead_eq_of_sameOutput hlen hmem s.outAddr.toNat
  constructor
  · simp only [State.hostWord, State.ctrlReg, State.statusReg, State.outDataReg, State.tableSizeReg,
      State.lastCodeReg, hst, herr, htr, hirq, haddr, hlen, hcc, hbc, hlc, hts, hdata]
  · simp only [State.irq, hirq, hst]

/-- The step of a host read, whole: the host receives the word of the index (R210). -/
theorem step_host_read {s : State} {h : HostCmd} {es : List Event} (he : s.events = .host h :: es)
    (hw : cmdWrite h = false) :
    step s = .next { s with events := es, hostRdata := s.hostWord (cmdIdx h) } := by
  rw [step_eq, he]
  exact exec_host_read hw _

/-- Settles O50: the word and irq depend on what is visible to the host alone. -/
theorem hiddenStateIsInvisible : Obligations.HiddenStateIsInvisible := by
  intro s t s' t' h es es' hsame hs ht hss' htt' hw
  obtain rfl := Host.Outcome.next.inj ((step_host_read hs hw).symm.trans hss')
  obtain rfl := Host.Outcome.next.inj ((step_host_read ht hw).symm.trans htt')
  exact hsame.hostWord_eq (cmdIdx h)

/-- The fields of STATUS, for every value of them (R45). -/
theorem statusWord_fields (e : BitVec 4) (tr : Bool) (st : BitVec 2) :
    let w : Word := (e.setWidth 32 <<< 4) ||| ((BitVec.ofBool tr).setWidth 32 <<< 2) ||| st.setWidth 32
    w.extractLsb' 0 2 = st ∧ w.getLsbD 2 = tr ∧ w.getLsbD 3 = false ∧ w.extractLsb' 4 4 = e ∧
      w.extractLsb' 8 24 = 0#24 := by
  revert e tr st; decide

/-- The fields of CTRL, for either value of IRQ_EN (R44). -/
theorem ctrlWord_fields (b : Bool) :
    let w : Word := (BitVec.ofBool b).setWidth 32 <<< 1
    w.getLsbD 0 = false ∧ w.getLsbD 1 = b ∧ w.extractLsb' 2 30 = 0#30 := by
  revert b; decide

/-- Settles O25: STATUS and CTRL hold their fields' encodings side by side. -/
theorem hostRegisterFields : Obligations.HostRegisterFields := by
  intro s
  obtain ⟨hstart, hirq, hrsvd⟩ := ctrlWord_fields s.irqEn
  obtain ⟨hst, htr, h3, herr, hhigh⟩ := statusWord_fields s.errCode.bits s.trunc s.state.bits
  refine ⟨hstart, hirq, hrsvd, ?_, ?_, ?_, ?_, htr, h3, ?_, ?_, ?_, ?_, hhigh⟩
  iterate 4 exact fun h => hst.trans (by rw [h]; rfl)
  iterate 4 exact fun h => herr.trans (by rw [h]; rfl)

/-- A run has ended exactly in DONE and in ERROR (R260). -/
theorem RunState.ended_iff (r : RunState) : r.ended = true ↔ r = .done ∨ r = .error := by
  cases r <;> decide

/-- Settles O29: irq is the conjunction of IRQ_EN and the pending condition. -/
theorem irqIsTheEndOfRunLevel : Obligations.IrqIsTheEndOfRunLevel := by
  intro s
  rw [State.irq, Bool.and_eq_true, RunState.ended_iff]

/-- Settles O30: the table's reads are those of the initial table. -/
theorem resetValues : Obligations.ResetValues := by
  rintro outCap strCap s rfl
  have hready : ¬ (State.resetWith outCap strCap).inReady := fun h => RunState.noConfusion h.1
  exact ⟨rfl, rfl, rfl, rfl, rfl, rfl, rfl, rfl, rfl, rfl, rfl, rfl, rfl, rfl, rfl, rfl,
    read_initTable, hready, rfl, _, _, rfl⟩

end Sys2Proof.Machine
end

section
/-! The form of both memories and the block's parameters (spec/20_memory.md R60 to R65; spec/00_scope.md R9), and SymRead of an absent slot (spec/20_memory.md R61). -/

namespace Sys2Proof.Machine

/-- A commit writes the output and LAST, not SYMTAB (R151). -/
theorem State.commit_symtab (s : State) (result : Str) : (s.commit result).symtab = s.symtab := by
  rw [State.commit_eq]

/-- SYMTAB's form in an engine turn: an insertion, with the table reset it may cause, keeps it, and nothing
else writes the table (R62, R63). -/
theorem EngineStep.keeps_symtab_wf {s t : State} (h : EngineStep s (.next t))
    (hw : Memory.wf s.symtab = true) : Memory.wf t.symtab = true := by
  cases h with
  | first => rw [State.commit_symtab]; exact hw
  | insert c _ new => rw [State.commit_symtab]; exact (s.takeCode c).wf_symWrite new hw
  | _ => exact hw

/-- OUTBUF's form in an engine turn: only OutAppend writes it (R65). -/
theorem EngineStep.keeps_outbuf_wf {s t : State} (h : EngineStep s (.next t))
    (hw : Memory.wf (α := Byte) s.outbuf = true) : Memory.wf (α := Byte) t.outbuf = true := by
  rcases h.output_cases with ⟨hsame, -⟩ | ⟨r, -, happ, -⟩
  · rw [hsame]; exact hw
  · rw [happ]; exact Memory.wf_writeStr r s.outbuf s.outLen.toNat hw

/-- An engine turn writes neither parameter of the block (R9). -/
theorem EngineStep.keeps_params {s t : State} (h : EngineStep s (.next t)) :
    t.outCap = s.outCap ∧ t.strCap = s.strCap := by
  cases h with
  | first => simp [State.commit_eq]
  | insert => simp [State.commit_eq]
  | _ => exact ⟨rfl, rfl⟩

/-- START writes the initial table, and neither OUTBUF's bytes nor a parameter (R213). -/
theorem State.start_memories {s : State} (h : s.state ≠ .run) :
    s.start.symtab = initTable ∧ s.start.outbuf = s.outbuf ∧ s.start.outCap = s.outCap ∧
      s.start.strCap = s.strCap := by
  rw [State.start_of_not_run h]
  exact ⟨rfl, rfl, rfl, rfl⟩

/-- Settles O40, by the agent that takes the step: only the engine, a START and a reset write a memory. -/
theorem stepKeepsMemoryForm : Obligations.StepKeepsMemoryForm := by
  intro s t h
  cases step_cases h with
  | engine es turn he => exact ⟨he.keeps_symtab_wf, he.keeps_outbuf_wf, he.keeps_params⟩
  | start v es hn hv hr =>
    obtain ⟨htab, hout, hparams⟩ :=
      State.start_memories (s := { s with events := es, irqEn := v.getLsbD 1 }) hr
    exact ⟨fun _ => by rw [htab]; exact wf_initTable, fun hw => by rw [hout]; exact hw, hparams⟩
  | reset es he =>
    obtain ⟨htab, hout⟩ := wf_reset s.outCap s.strCap
    exact ⟨fun _ => htab, fun _ => hout, rfl, rfl⟩
  | _ => exact ⟨id, id, rfl, rfl⟩

/-- D_FIRST on an absent slot (R61, R152). -/
theorem execDFirst_absent {s : State} {c : Codeword} (h : s.decodeReady c) (ht : s.tsize.toNat = 256)
    (hl : s.last = []) (hc : c.toNat < 256) (hr : s.symRead c.toNat = none) :
    execDFirst c s = .fault .symReadAbsent := by
  rw [execDFirst_eq h ht hl hc, hr]

/-- D_HIT on an absent slot (R61, R153). -/
theorem execDHit_absent {s : State} {c : Codeword} (h : s.decodeReady c) (hl : s.last ≠ [])
    (hc : c.toNat < s.tsize.toNat) (hr : s.symRead c.toNat = none) :
    execDHit c s = .fault .symReadAbsent := by
  rw [execDHit_eq h hl hc, hr]

/-- Settles O20: both operations answer what SymRead gives them, and an absent slot gives the fault. -/
theorem absentSlotReadFaults : Obligations.AbsentSlotReadFaults :=
  ⟨fun _ _ => execDFirst_absent, fun _ _ => execDHit_absent⟩

end Sys2Proof.Machine
end

section
/-! The round trip between the decoder and the encoder, one equivalence per input form (spec/30_encoding.md R90, R100, R101). -/

namespace Sys2Proof

/-- A token selects exactly the operation that it encodes and whose UPH is the context's (R90, R121 to R127). -/
theorem decodeToken_eq_iff (ctx : DecodeCtx) (t : Token) (i : Instr) :
    decodeToken ctx.phase t = i ↔ encode i = some (.token t) ∧ selects ctx i = true := by
  constructor
  · rintro rfl
    rw [token_eq t]
    cases tokenEnd t
    · cases hp : ctx.phase <;> simp [decodeToken_byte, encode, selects, hp]
    · cases hp : ctx.phase <;> simp [decodeToken_end, encode, selects, hp]
  · rintro ⟨he, hs⟩
    cases i with
    | uHold1 b | uHold2 b | uFull b =>
      cases he
      rw [decodeToken_byte, of_decide_eq_true hs]
    | uEnd0 data | uEnd1 data | uEnd2 data =>
      cases he
      rw [decodeToken_end, of_decide_eq_true hs]
    | _ => cases he

/-- A codeword selects exactly the operation that it encodes and whose class is the context's (R100). -/
theorem decodeCode_eq_ok_iff (ctx : DecodeCtx) (c : Codeword) (i : Instr) :
    decodeCode ctx.tsize ctx.lastEmpty c = .ok i ↔
      encode i = some (.code c) ∧ selects ctx i = true := by
  constructor
  · intro h
    rcases decodeCode_cases ctx.tsize ctx.lastEmpty c with
      ⟨_, _, e⟩ | ⟨hl, ht, hc, e⟩ | ⟨hl, ht, hc, e⟩ | ⟨hl, hc, e⟩ | ⟨hl, hc, e⟩ | ⟨hl, hc, e⟩ <;>
      cases e.symm.trans h <;> simp [encode, selects, *]
  · rintro ⟨he, hs⟩
    cases i with
    | dFirst _ | dCorruptFirst _ | dHit _ | dKwkwk _ | dCorrupt _ =>
      cases he
      simp only [selects, Bool.and_eq_true, Bool.not_eq_true', decide_eq_true_eq] at hs
      have classes := decodeCode_cases ctx.tsize ctx.lastEmpty c
      grind
    | _ => cases he

/-- Outside the combination that R157 excludes, every codeword has a class (R100). -/
theorem decodeCode_accepts (ctx : DecodeCtx) (c : Codeword)
    (h : ctx.lastEmpty = true → ctx.tsize.toNat = 256) :
    ∃ i, decodeCode ctx.tsize ctx.lastEmpty c = .ok i := by
  rcases decodeCode_cases ctx.tsize ctx.lastEmpty c with
    ⟨hl, ht, _⟩ | ⟨_, _, _, e⟩ | ⟨_, _, _, e⟩ | ⟨_, _, e⟩ | ⟨_, _, e⟩ | ⟨_, _, e⟩
  · exact absurd (h hl) ht
  all_goals exact ⟨_, e⟩

/-- The register indices are the nine of R43 and the reserved ones (R53). -/
theorem regIdx_cases (idx : RegIdx) :
    9 ≤ idx.toNat ∨ idx = 0 ∨ idx = 1 ∨ idx = 2 ∨ idx = 3 ∨ idx = 4 ∨ idx = 5 ∨ idx = 6 ∨ idx = 7 ∨
      idx = 8 := by
  revert idx; decide

/-- A host command selects exactly the well-formed operation that it encodes, whatever the context (R101). -/
theorem decodeHost_eq_iff (h : HostCmd) (i : Instr) :
    decodeHost h = i ↔ encode i = some (.host h) ∧ wellFormed i = true := by
  constructor
  · rintro rfl
    rw [← mkCmd_fields h]
    generalize cmdWrite h = we, cmdIdx h = idx, cmdData h = v
    rcases regIdx_cases idx with hr | rfl | rfl | rfl | rfl | rfl | rfl | rfl | rfl | rfl
    · rw [decodeHost_rsvd we idx v hr]
      cases we <;> exact ⟨rfl, decide_eq_true hr⟩
    all_goals
      rw [decodeHost_mkCmd]
      cases we <;> exact ⟨rfl, rfl⟩
  · rintro ⟨he, hw⟩
    cases i with
    | rdRsvd idx v | wrRsvd idx v =>
      cases he
      exact decodeHost_rsvd _ idx v (of_decide_eq_true hw)
    | uHold1 _ | uHold2 _ | uFull _ | uEnd0 _ | uEnd1 _ | uEnd2 _ => cases he
    | dFirst _ | dCorruptFirst _ | dHit _ | dKwkwk _ | dCorrupt _ | tableReset | dAppend _ => cases he
    | _ =>
      cases he
      exact decodeHost_mkCmd _ _ _

/-- An operation with a token for its encoding has no operand outside its row (R90). -/
theorem wellFormed_of_encode_token {i : Instr} {t : Token} (he : encode i = some (.token t)) :
    wellFormed i = true := by
  cases i with
  | uHold1 _ | uHold2 _ | uFull _ | uEnd0 _ | uEnd1 _ | uEnd2 _ => rfl
  | _ => cases he

/-- With TSIZE in its range between steps (R38), the class a codeword falls into is one its row admits (R100). -/
theorem wellFormed_of_encode_code {ctx : DecodeCtx} {i : Instr} {c : Codeword}
    (he : encode i = some (.code c)) (hs : selects ctx i = true)
    (hlo : 256 ≤ ctx.tsize.toNat) (hhi : ctx.tsize.toNat ≤ 4095) : wellFormed i = true := by
  cases i with
  | dFirst _ | dCorruptFirst _ | dHit _ | dKwkwk _ | dCorrupt _ =>
    simp only [selects, wellFormed, Bool.and_eq_true, decide_eq_true_eq] at hs ⊢
    omega
  | _ => cases he

/-- Every context selects a host command (R210). -/
theorem selects_of_encode_host (ctx : DecodeCtx) {i : Instr} {h : HostCmd}
    (he : encode i = some (.host h)) : selects ctx i = true := by
  cases i with
  | uHold1 _ | uHold2 _ | uFull _ | uEnd0 _ | uEnd1 _ | uEnd2 _ => cases he
  | dFirst _ | dCorruptFirst _ | dHit _ | dKwkwk _ | dCorrupt _ | tableReset | dAppend _ => cases he
  | _ => rfl

/-- Settles O1, by the form of the input the operation encodes to. -/
theorem decodeOfEncode : Obligations.DecodeOfEncode := by
  intro ctx i w hwf hs he
  cases w with
  | token t => exact congrArg Except.ok ((decodeToken_eq_iff ctx t i).2 ⟨he, hs⟩)
  | code c => exact (decodeCode_eq_ok_iff ctx c i).2 ⟨he, hs⟩
  | host h => exact congrArg Except.ok ((decodeHost_eq_iff h i).2 ⟨he, hwf⟩)

/-- Settles O2, by the form of the input: its equivalence, and the range of the operand. -/
theorem encodeOfDecode : Obligations.EncodeOfDecode := by
  intro ctx w i hd
  cases w with
  | token t =>
    obtain ⟨he, hs⟩ := (decodeToken_eq_iff ctx t i).1 (Except.ok.inj hd)
    exact ⟨he, hs, fun _ _ => wellFormed_of_encode_token he⟩
  | code c =>
    obtain ⟨he, hs⟩ := (decodeCode_eq_ok_iff ctx c i).1 hd
    exact ⟨he, hs, wellFormed_of_encode_code he hs⟩
  | host h =>
    obtain ⟨he, hwf⟩ := (decodeHost_eq_iff h i).1 (Except.ok.inj hd)
    exact ⟨he, selects_of_encode_host ctx he, fun _ _ => hwf⟩

/-- Settles O3: the decoder is a function, so the class that it answers is the only one. -/
theorem oneCodewordClassApplies : Obligations.OneCodewordClassApplies := by
  intro ctx c hex
  obtain ⟨i, hi⟩ := decodeCode_accepts ctx c hex
  refine ⟨i, (decodeCode_eq_ok_iff ctx c i).1 hi, fun j he hs => ?_⟩
  have hj := (decodeCode_eq_ok_iff ctx c j).2 ⟨he, hs⟩
  exact Except.ok.inj (hj.symm.trans hi)

end Sys2Proof
end

section
/-! The codewords of a chunk as fields of its bytes, and the inverse packing (spec/30_encoding.md R93 to R99). -/

namespace Sys2Proof.Machine

/-- Two words side by side, as a number. -/
theorem toNat_append_eq_add {m n : Nat} (x : BitVec m) (y : BitVec n) :
    (x ++ y).toNat = x.toNat * 2 ^ n + y.toNat := by
  rw [BitVec.toNat_append, ← Nat.shiftLeft_add_eq_or_of_lt y.isLt, Nat.shiftLeft_eq]

/-- The three bytes of a FULL chunk as one number (R97). -/
theorem chunk_toNat (b1 b2 b3 : Byte) :
    (b1 ++ b2 ++ b3 : BitVec 24).toNat = b1.toNat * 65536 + b2.toNat * 256 + b3.toNat := by
  rw [toNat_append_eq_add, toNat_append_eq_add]
  omega

/-- code_A is bits 23:12 of the chunk (R97). -/
theorem codeA_eq_field (b1 b2 b3 : Byte) :
    codeA b1 b2 = ((b1 ++ b2 ++ b3 : BitVec 24).extractLsb' 12 12).setWidth 16 := by
  apply BitVec.eq_of_toNat_eq
  rw [codeA_toNat, BitVec.toNat_setWidth, BitVec.extractLsb'_toNat, chunk_toNat, Nat.shiftRight_eq_div_pow]
  omega

/-- code_B is bits 11:0 of the chunk (R97). -/
theorem codeB_eq_field (b1 b2 b3 : Byte) :
    codeB b2 b3 = ((b1 ++ b2 ++ b3 : BitVec 24).extractLsb' 0 12).setWidth 16 := by
  apply BitVec.eq_of_toNat_eq
  rw [codeB_toNat, BitVec.toNat_setWidth, BitVec.extractLsb'_toNat, chunk_toNat, Nat.shiftRight_eq_div_pow]
  omega

/-- code_T is the two bytes of the pair, unmasked (R97). -/
theorem codeT_eq_append (b1 b2 : Byte) : codeT b1 b2 = (b1 ++ b2 : BitVec 16) :=
  BitVec.eq_of_toNat_eq ((codeT_toNat b1 b2).trans (toNat_append_eq_add b1 b2).symm)

theorem codeA_le (b1 b2 : Byte) : (codeA b1 b2).toNat ≤ 0xFFF := by
  rw [codeA_toNat]
  omega

theorem codeB_le (b2 b3 : Byte) : (codeB b2 b3).toNat ≤ 0xFFF := by
  rw [codeB_toNat]
  omega

/-- Settles O6: each codeword as a field, as a number, and within its bound. -/
theorem codewordsAreChunkFields : Obligations.CodewordsAreChunkFields :=
  ⟨fun b1 b2 b3 => ⟨codeA_eq_field b1 b2 b3, codeB_eq_field b1 b2 b3, codeA_toNat b1 b2, codeB_toNat b2 b3,
      codeA_le b1 b2, codeB_le b2 b3⟩,
    fun b1 b2 => ⟨codeT_eq_append b1 b2, codeT_toNat b1 b2⟩⟩

/-- Assembling a packed pair gives its first codeword (R99). -/
theorem codeA_pack {x y : Codeword} (hx : x.toNat ≤ 0xFFF) (hy : y.toNat ≤ 0xFFF) :
    codeA (packB1 x) (packB2 x y) = x := by
  apply BitVec.eq_of_toNat_eq
  rw [codeA_toNat, packB1_toNat, packB2_toNat x y hy]
  omega

/-- Assembling a packed pair gives its second codeword (R99). -/
theorem codeB_pack (x : Codeword) {y : Codeword} (hy : y.toNat ≤ 0xFFF) :
    codeB (packB2 x y) (packB3 y) = y := by
  apply BitVec.eq_of_toNat_eq
  rw [codeB_toNat, packB2_toNat x y hy, packB3_toNat]
  omega

/-- Packing an assembled chunk gives its bytes (R99). -/
theorem pack_code (b1 b2 b3 : Byte) :
    packB1 (codeA b1 b2) = b1 ∧ packB2 (codeA b1 b2) (codeB b2 b3) = b2 ∧ packB3 (codeB b2 b3) = b3 := by
  refine ⟨?_, ?_, ?_⟩ <;> apply BitVec.eq_of_toNat_eq
  · rw [packB1_toNat, codeA_toNat]
    omega
  · rw [packB2_toNat _ _ (codeB_le b2 b3), codeA_toNat, codeB_toNat]
    omega
  · rw [packB3_toNat, codeB_toNat]
    omega

/-- code_T inverts the packing of a final odd codeword (R99); the pair's path keeps all 16 bits. -/
theorem codeT_pack (c : Codeword) : codeT ((c >>> 8).setWidth 8) (packB3 c) = c := by
  apply BitVec.eq_of_toNat_eq
  rw [codeT_toNat, packB3_toNat, BitVec.toNat_setWidth, BitVec.toNat_ushiftRight, Nat.shiftRight_eq_div_pow]
  omega

/-- Settles O7: the two inverse directions on the numbers of the codewords and of the bytes. -/
theorem fullPackingBijective : Obligations.FullPackingBijective :=
  ⟨fun x _ hx hy => ⟨codeA_pack hx hy, codeB_pack x hy⟩, pack_code, fun c _ => codeT_pack c⟩

end Sys2Proof.Machine
end

section
/-! The step at a host access (spec/43_host_interface.md R210). -/

namespace Sys2Proof.Machine

/-- Settles O34: a host access is taken as the next event, whatever STATE is. -/
theorem stepRunsTheHostCommand : Obligations.StepRunsTheHostCommand := by
  intro s h es i he hd
  obtain rfl := Except.ok.inj hd
  rw [step_eq, he]

end Sys2Proof.Machine
end

section
/-! The unpacker operations, each with the token that selects it, and the engine's turn that runs it (spec/40_unpacker.md R120 to R130). -/

namespace Sys2Proof.Machine

/-- Settles O8: the BYTE token at UPH = 0, and the equation of its operation. -/
theorem uHold1Completes : Obligations.UHold1Completes := by
  intro s b hin hp
  exact ⟨execUHold1_eq b hin hp, (decodeToken_byte s.uph b).trans (by rw [hp])⟩

/-- Settles O9: the BYTE token at UPH = 1, and the equation of its operation. -/
theorem uHold2Completes : Obligations.UHold2Completes := by
  intro s b hin hp
  exact ⟨execUHold2_eq b hin hp, (decodeToken_byte s.uph b).trans (by rw [hp])⟩

/-- U_FULL with its codewords by name, and the token that selects it (R123). -/
theorem uFull_next {s : State} (b3 : Byte) (hin : s.inReady) (hp : s.uph = .two) :
    exec (.uFull b3) s =
      .next { s with cq := [codeA s.ub1 s.ub2, codeB s.ub2 b3], uph := .zero
                     byteCount := s.byteCount + 1#32 } ∧
    decodeToken s.uph (0#1 ++ b3) = .uFull b3 :=
  ⟨execUFull_eq b3 hin hp, (decodeToken_byte s.uph b3).trans (by rw [hp])⟩

/-- Settles O10: the two codewords are code_A and code_B, whose numbers and bounds R97 gives. -/
theorem uFullCompletes : Obligations.UFullCompletes := by
  intro s b3 hin hp
  obtain ⟨hx, hd⟩ := uFull_next b3 hin hp
  exact ⟨codeA s.ub1 s.ub2, codeB s.ub2 b3, hx, codeA_shifts _ _, codeB_shifts _ _,
    codeA_le _ _, codeB_le _ _, hd⟩

/-- Settles O11: the END token at UPH = 0, and the equation of its operation. -/
theorem uEnd0Completes : Obligations.UEnd0Completes := by
  intro s data hin hp
  exact ⟨execUEnd0_eq data hin hp, (decodeToken_end s.uph data).trans (by rw [hp])⟩

/-- Settles O12: the END token at UPH = 1, and the equation of its operation. -/
theorem uEnd1Completes : Obligations.UEnd1Completes := by
  intro s data hin hp
  exact ⟨execUEnd1_eq data hin hp, (decodeToken_end s.uph data).trans (by rw [hp])⟩

/-- U_END2 with its codeword by name, and the token that selects it (R127). -/
theorem uEnd2_next {s : State} (data : Byte) (hin : s.inReady) (hp : s.uph = .two) :
    exec (.uEnd2 data) s =
      .next { s with cq := [codeT s.ub1 s.ub2], uph := .zero, eofSeen := true } ∧
    decodeToken s.uph (1#1 ++ data) = .uEnd2 data :=
  ⟨execUEnd2_eq data hin hp, (decodeToken_end s.uph data).trans (by rw [hp])⟩

/-- Settles O13: the codeword is code_T, whose number R97 gives. -/
theorem uEnd2Completes : Obligations.UEnd2Completes := by
  intro s data hin hp
  obtain ⟨hx, hd⟩ := uEnd2_next data hin hp
  exact ⟨codeT s.ub1 s.ub2, hx, codeT_shifts _ _, hd⟩

/-- Settles O32: the engine's turn, which in_ready = 1 makes an unpack step. -/
theorem stepRunsTheToken : Obligations.StepRunsTheToken := by
  intro s es t ts turn hin hs
  rw [step_engineTurn turn]
  exact engineStep_unpack (s := { s with events := es }) hin hs rfl

end Sys2Proof.Machine
end

section
/-! A whole run against the source's algorithm: from any point of a run that agrees with the algorithm, the machine ends as the algorithm ends on the codewords still to come (spec/40_unpacker.md R131; spec/41_dictionary.md R151; spec/42_driver.md R193, R194, R196). -/

namespace Sys2Proof.Machine

/-- From `s`, in which `k` codewords have been decoded, the machine ends the run with the algorithm's answer `r` on the
codewords still to come: its output, its error, and the number of codewords it decoded. `AtDone` holds of the end in DONE. -/
def EndsAs (s : State) (k : Nat) (r : Str × ErrCode × Nat) (AtDone : State → Prop) : Prop :=
  ∃ n t, Host.Core.run Sys2Proof.core n s = .next t ∧
    t.state = (if r.2.1 = .noError then .done else .error) ∧ t.errCode = r.2.1 ∧
    t.OutputIs r.1 ∧ t.codeCount = BitVec.ofNat 32 (k + r.2.2) ∧ (r.2.1 = .noError → AtDone t)

/-- What else a run that ends in DONE leaves: the tokens behind END, BYTE_COUNT, and TRUNC (R24, R29, R197). -/
def DoneWith (rest : List Token) (n : Word) (tr : Bool) (t : State) : Prop :=
  t.source = rest ∧ t.byteCount = n ∧ t.trunc = tr

/-- What a successful decode step leaves for the steps after it: the rest of the queue, STATE, the unpacker, the
source, and the parameters (R151, R162). -/
structure DecodeLeaves (s t : State) (cs : List Codeword) : Prop where
  cq : t.cq = cs
  state : t.state = if cs = [] ∧ s.eofSeen = true then .done else .run
  source : t.source = s.source
  eofSeen : t.eofSeen = s.eofSeen
  uph : t.uph = s.uph
  byteCount : t.byteCount = s.byteCount
  outCap : t.outCap = s.outCap
  strCap : t.strCap = s.strCap

variable {s t : State} {table : List Str} {last out : Str} {k : Nat} {r : Str × ErrCode × Nat}
  {AtDone : State → Prop}

/-- A step comes before the run from the state it answers. -/
theorem EndsAs.of_step (hs : step s = .next t) (h : EndsAs t k r AtDone) : EndsAs s k r AtDone := by
  obtain ⟨n, u, hrun, hend⟩ := h
  refine ⟨n + 1, u, ?_, hend⟩
  simpa only [Host.Core.run, Host.Check.core_step, hs] using hrun

/-- One codeword more before `s` is one fewer in the answer from `s`. -/
theorem EndsAs.of_succ (h : EndsAs s (k + 1) r AtDone) : EndsAs s k (r.1, r.2.1, r.2.2 + 1) AtDone := by
  obtain ⟨n, t, hrun, hst, her, hout, hcnt, hfin⟩ := h
  refine ⟨n, t, hrun, hst, her, hout, ?_, hfin⟩
  rw [hcnt, Nat.add_right_comm, Nat.add_assoc]

/-- With no event to come every step is the engine's. -/
theorem step_of_noEvents (he : s.events = []) : step s = engineStep s := by
  rw [step_eq, he]

/-- The engine's turn takes the token offered and runs its operation (R120). -/
theorem EndsAs.of_token {i : Instr} {tok : Token} {ts : List Token} (he : s.events = [])
    (hin : s.inReady) (hs : s.source = tok :: ts)
    (hop : exec i { s with source := ts } = .next t ∧ decodeToken s.uph tok = i)
    (h : EndsAs t k r AtDone) : EndsAs s k r AtDone := by
  obtain ⟨hx, hd⟩ := hop
  refine h.of_step ?_
  rw [step_of_noEvents he, engineStep_unpack hin hs rfl, hd, hx]

/-- The simulation holds the machine's output to the algorithm's. -/
theorem Sim.outputIs (h : Sim s table last out k) : s.OutputIs out := by
  refine ⟨h.outLen, fun i hi => ?_⟩
  have hb : Memory.read (α := Byte) s.outbuf i = some out[i] :=
    (h.outb i hi).trans (List.getElem?_eq_getElem hi)
  rw [State.memRead_of_read (h.outLen ▸ hi) hb, List.getElem?_eq_getElem hi]

/-- The simulation is about none of the unpacker's fields, nor about the source or STATE. -/
theorem Sim.unpack (h : Sim s table last out k) (st : RunState) (n : Word) (p : Phase) (b1 b2 : Byte)
    (q : List Codeword) (eof : Bool) (src : List Token) :
    Sim { s with state := st, byteCount := n, uph := p, ub1 := b1, ub2 := b2, cq := q, eofSeen := eof
                 source := src } table last out k := by
  cases h
  constructor <;> assumption

/-- A state that ends the run with the output and the count of a simulating one has decoded nothing more. -/
theorem Sim.endsAs {e : ErrCode} (h : Sim s table last out k)
    (hst : t.state = if e = .noError then .done else .error) (her : t.errCode = e)
    (hob : t.outbuf = s.outbuf) (hol : t.outLen = s.outLen) (hcc : t.codeCount = s.codeCount)
    (hfin : e = .noError → AtDone t) : EndsAs t k (out, e, 0) AtDone := by
  have hout : t.OutputIs out := by
    obtain ⟨hlen, hbytes⟩ := h.outputIs
    exact ⟨by rw [hol, hlen], fun i hi => by rw [State.memRead_congr hob hol, hbytes i hi]⟩
  exact ⟨0, t, rfl, hst, her, hout, hcc.trans h.cnt, hfin⟩

/-- A decode step before the rest of the run: the algorithm's error ends both, and a decoded string leaves the run from
the next state (R151, R254). -/
theorem Sim.endsAs_decode {c : Codeword} {cs codes : List Codeword} (h : Sim s table last out k)
    (hrun : s.state = .run) (hc : s.cq = c :: cs)
    (next : ∀ {t table' last' out'}, Sim t table' last' out' (k + 1) → DecodeLeaves s t cs →
      EndsAs t (k + 1) (refRun t.strCap t.outCap table' last' out' codes) AtDone) :
    EndsAs s k (refRun s.strCap s.outCap table last out (c :: codes)) AtDone := by
  have hd := decode_sim h hrun hc
  rw [refRun]
  cases hx : refDecode s.strCap (s.outCap - out.length) table last c.toNat with
  | error e =>
    rw [hx] at hd
    obtain ⟨hne, t, ht, hf⟩ := hd
    refine EndsAs.of_step ((step_of_noEvents h.events).trans ht) ?_
    exact h.endsAs (by rw [hf.st, if_neg hne]) hf.er hf.ob hf.ol hf.cc fun he => absurd he hne
  | ok p =>
    obtain ⟨table', result⟩ := p
    rw [hx] at hd
    obtain ⟨t, ht, hsim, hcq, hst, hsrc, heof, huph, hbc, hoc, hsc⟩ := hd
    refine EndsAs.of_step ((step_of_noEvents h.events).trans ht) (EndsAs.of_succ ?_)
    rw [← hsc, ← hoc]
    exact next hsim ⟨hcq, hst, hsrc, heof, huph, hbc, hoc, hsc⟩

/-- The first two bytes of a chunk are held (R121, R122). -/
theorem EndsAs.of_hold {b1 b2 : Byte} {ts : List Token} (he : s.events = []) (hin : s.inReady)
    (hp : s.uph = .zero) (hs : s.source = byteToken b1 :: byteToken b2 :: ts)
    (h : EndsAs { s with source := ts, ub1 := b1, ub2 := b2, uph := .two
                         byteCount := s.byteCount + 1#32 + 1#32 } k r AtDone) : EndsAs s k r AtDone :=
  .of_token he hin hs (uHold1Completes _ b1 hin hp)
    (.of_token he hin rfl (uHold2Completes _ b2 hin rfl) h)

/-- END at a chunk boundary ends the run (R125). -/
theorem Sim.endsAs_end0 {data : Byte} {rest : List Token} (h : Sim s table last out k)
    (hin : s.inReady) (hp : s.uph = .zero) (hs : s.source = endToken data :: rest) :
    EndsAs s k (out, .noError, 0) (DoneWith rest s.byteCount false) :=
  .of_token h.events hin hs (uEnd0Completes _ data hin hp)
    (h.endsAs rfl h.err rfl rfl rfl fun _ => ⟨rfl, rfl, h.trunc⟩)

/-- A trailing single is discarded with TRUNC set (R126). -/
theorem Sim.endsAs_end1 {b data : Byte} {rest : List Token} (h : Sim s table last out k)
    (hin : s.inReady) (hp : s.uph = .zero) (hs : s.source = byteToken b :: endToken data :: rest) :
    EndsAs s k (out, .noError, 0) (DoneWith rest (s.byteCount + 1#32) true) :=
  .of_token h.events hin hs (uHold1Completes _ b hin hp)
    (.of_token h.events hin rfl (uEnd1Completes _ data hin rfl)
      (h.endsAs rfl h.err rfl rfl rfl fun _ => ⟨rfl, rfl, rfl⟩))

/-- A trailing pair's codeword is the last one decoded (R127, R193). -/
theorem Sim.endsAs_end2 {b1 b2 data : Byte} {rest : List Token} (h : Sim s table last out k)
    (hin : s.inReady) (hp : s.uph = .zero)
    (hs : s.source = byteToken b1 :: byteToken b2 :: endToken data :: rest) :
    EndsAs s k (refRun s.strCap s.outCap table last out [codeT b1 b2])
      (DoneWith rest (s.byteCount + 1#32 + 1#32) false) := by
  refine .of_hold h.events hin hp hs (.of_token h.events hin rfl (uEnd2_next data hin rfl) ?_)
  refine (h.unpack ..).endsAs_decode hin.1 rfl fun hsim hl => ?_
  exact hsim.endsAs hl.state hsim.err rfl rfl rfl fun _ => ⟨hl.source, hl.byteCount, hsim.trunc⟩

/-- A FULL chunk's two codewords are decoded before the next token is taken (R123, R191). -/
theorem Sim.endsAs_full {b1 b2 b3 : Byte} {ts : List Token} {codes : List Codeword}
    (h : Sim s table last out k) (hin : s.inReady) (hp : s.uph = .zero)
    (hs : s.source = byteToken b1 :: byteToken b2 :: byteToken b3 :: ts)
    (next : ∀ {t table' last' out'}, Sim t table' last' out' (k + 2) → t.inReady → t.uph = .zero →
      t.source = ts → t.byteCount = s.byteCount + 1#32 + 1#32 + 1#32 →
      EndsAs t (k + 2) (refRun t.strCap t.outCap table' last' out' codes) AtDone) :
    EndsAs s k (refRun s.strCap s.outCap table last out (codeA b1 b2 :: codeB b2 b3 :: codes)) AtDone := by
  refine .of_hold h.events hin hp hs (.of_token h.events hin rfl (uFull_next b3 hin rfl) ?_)
  refine (h.unpack ..).endsAs_decode hin.1 rfl fun hsim1 h1 => ?_
  refine hsim1.endsAs_decode h1.state h1.cq fun hsim2 h2 => ?_
  have heof := h1.eofSeen.trans hin.2.2
  have hrun := h2.state.trans (if_neg (by simp [heof]))
  exact next hsim2 ⟨hrun, h2.cq, h2.eofSeen.trans heof⟩ (h2.uph.trans h1.uph) (h2.source.trans h1.source)
    (h2.byteCount.trans h1.byteCount)

/-- At a chunk boundary, with the bytes to come and END offered, the run ends as the algorithm ends on the codewords
that the bytes deliver: by the chunks of the bytes (R131). -/
theorem Sim.endsAs_stream {data : Byte} {rest : List Token} :
    ∀ (bytes : Str) {s : State} {table : List Str} {last out : Str} {k : Nat},
      Sim s table last out k → s.inReady → s.uph = .zero →
      s.source = bytes.map byteToken ++ endToken data :: rest →
      EndsAs s k (refRun s.strCap s.outCap table last out (deliveredCodes bytes))
        (DoneWith rest (s.byteCount + BitVec.ofNat 32 bytes.length) (decide (bytes.length % 3 = 1)))
  | [], _, _, _, _, _, h, hin, hp, hs => by
    rw [List.length_nil, BitVec.add_zero]
    exact h.endsAs_end0 hin hp hs
  | [_], _, _, _, _, _, h, hin, hp, hs => h.endsAs_end1 hin hp hs
  | [b1, b2], s, _, _, _, _, h, hin, hp, hs => by
    have hn : s.byteCount + BitVec.ofNat 32 [b1, b2].length = s.byteCount + 1#32 + 1#32 :=
      (BitVec.add_assoc s.byteCount 1#32 1#32).symm
    rw [hn]
    exact h.endsAs_end2 hin hp hs
  | b1 :: b2 :: b3 :: bytes, s, _, _, _, _, h, hin, hp, hs => by
    refine h.endsAs_full hin hp hs fun {t} _ _ _ hsim hin' hp' hs' hbc => ?_
    have hn : s.byteCount + BitVec.ofNat 32 (b1 :: b2 :: b3 :: bytes).length =
        t.byteCount + BitVec.ofNat 32 bytes.length := by
      rw [hbc]
      simp only [List.length_cons, BitVec.ofNat_add]
      ac_rfl
    have htr : (b1 :: b2 :: b3 :: bytes).length % 3 = bytes.length % 3 := by
      simp only [List.length_cons]
      omega
    rw [hn, htr]
    exact Sim.endsAs_stream bytes hsim hin' hp' hs'

/-- START leaves the machine where the algorithm begins (R213). -/
theorem sim_start (hcap : s.outCap ≤ 4294967295) (he : s.events = []) (hr : s.state ≠ .run) :
    Sim s.start refInitial [] [] 0 := by
  rw [State.start_of_not_run hr]
  have htab : ∀ i, i < refInitial.length → Memory.read initTable i = refInitial[i]? := by
    intro i hi
    rw [refInitial_length] at hi
    rw [read_initTable, if_pos hi, refInitial_get i hi]
  have hne : ∀ (i : Nat) (str : Str), refInitial[i]? = some str → str ≠ [] := by
    intro i str hi
    obtain ⟨hlt, -⟩ := List.getElem?_eq_some_iff.1 hi
    rw [refInitial_get i (refInitial_length ▸ hlt)] at hi
    exact Option.some.inj hi ▸ List.cons_ne_nil _ _
  have hlen : refInitial.length = 256 := refInitial_length
  exact {
    caps := hcap, events := he, err := rfl, trunc := rfl, tsize := hlen.symm, lo := hlen.ge
    hi := by rw [hlen]; decide
    tab := htab, ne := hne, last_eq := rfl, first := fun _ => hlen, outLen := rfl
    fits := Nat.zero_le _, outb := fun _ hi => absurd hi (Nat.not_lt_zero _), cnt := rfl }

/-- A run that START begins ends as the algorithm ends on the codewords of the bytes offered (R190, R196). -/
theorem endsAs_start {bytes : Str} {data : Byte} {rest : List Token} (hcap : s.outCap ≤ 4294967295)
    (he : s.events = []) (hr : s.state ≠ .run)
    (hs : s.source = bytes.map byteToken ++ endToken data :: rest) :
    EndsAs s.start 0 (refRun s.strCap s.outCap refInitial [] [] (deliveredCodes bytes))
      (DoneWith rest (BitVec.ofNat 32 bytes.length) (decide (bytes.length % 3 = 1))) := by
  have hsim := sim_start hcap he hr
  rw [State.start_of_not_run hr] at hsim ⊢
  simpa only [BitVec.zero_add] using hsim.endsAs_stream bytes ⟨rfl, rfl, rfl⟩ rfl hs

/-- The host's write of CTRL with bit 0 set, as a step (R212, R213). -/
theorem step_wrCtrl_start {v : Word} {es : List Event} (he : s.events = .host (mkCmd true 0 v) :: es)
    (hv : v.getLsbD 0 = true) :
    step s = .next (State.start { s with events := es, irqEn := v.getLsbD 1 }) := by
  have hd : decode s.ctx (.host (mkCmd true 0 v)) = .ok (.wrCtrl v) :=
    congrArg Except.ok (decodeHost_mkCmd true 0 v)
  rw [stepRunsTheHostCommand s _ es _ he hd]
  exact (execWrCtrl_eq v _).trans (by rw [if_pos hv])

/-- Settles O52: START leaves the machine where the algorithm begins, at a chunk boundary, and from there the run is the
algorithm's on the codewords of the stream. -/
theorem runDecodesTheStream : Obligations.RunDecodesTheStream := by
  intro s v bytes data rest ⟨⟨_, hcap⟩, _⟩ hrun hv he hs
  have hstart := endsAs_start (s := { s with events := [], irqEn := v.getLsbD 1 }) hcap rfl hrun hs
  obtain ⟨n, t, hn, hst, her, hout, hcnt, hfin⟩ := hstart.of_step (step_wrCtrl_start he hv)
  exact ⟨n, t, hn, _, _, _, rfl, hst, her, hout, by rw [hcnt, Nat.zero_add], hfin⟩

end Sys2Proof.Machine
end

section
/-! The DictionaryDecoder operations where they complete, and the engine's turn that runs them (spec/41_dictionary.md R150 to R158; spec/42_driver.md R191 to R193). -/

namespace Sys2Proof.Machine

/-- What a successful decode step on `c` with the given result leaves, whatever it does to the table (R151, R162,
R192, R193). -/
structure Decoded (s t : State) (c : Codeword) (result : Str) : Prop where
  cq : t.cq = s.cq.tail
  lastCode : t.lastCode = c
  last : t.last = result
  codeCount : t.codeCount = s.codeCount + 1#32
  outLen : t.outLen = s.outLen + BitVec.ofNat 32 result.length
  appended : AppendedAt s.outbuf t.outbuf s.outLen.toNat result
  state : t.state = if s.cq.tail = [] ∧ s.eofSeen = true then .done else .run
  errCode : t.errCode = s.errCode
  beside : SameBesideDecode s t

variable {s : State} {c : Codeword}

/-- The commit that ends a decode step, after any change of the table (R151). -/
theorem decoded_commit (hr : s.state = .run) (tab : Memory Str) (n : BitVec 13) (result : Str) :
    Decoded s (State.commit { s.takeCode c with symtab := tab, tsize := n } result) c result := by
  rw [State.commit_eq]
  constructor
  case state => simp [hr]
  case appended => exact appendedAt_writeStr _ _ _
  case beside => exact ⟨rfl, rfl, rfl, rfl, rfl, rfl, rfl, rfl, rfl, rfl, rfl, rfl, rfl⟩
  all_goals rfl

/-- An insertion and the commit after it (R151, R156). -/
theorem decoded_insert (hr : s.state = .run) (new result : Str) :
    Decoded s ((((s.takeCode c).symWrite new).resetIfFull).commit result) c result ∧
      InsertedAt s ((((s.takeCode c).symWrite new).resetIfFull).commit result) new := by
  constructor
  · obtain ⟨tab, n, heq⟩ := (s.takeCode c).insert_eq new
    rw [heq]
    exact decoded_commit hr tab n result
  · rw [State.commit_eq]
    exact (s.takeCode c).insertedAt_symWrite new

/-- A result that fits is committed (R151, R252). -/
theorem State.deliver_of_fits {result : Str} (ho : s.outLen.toNat + result.length ≤ s.outCap) :
    s.deliver result = s.commit result :=
  if_neg (Nat.not_lt.2 ho)

/-- With both strings in their bounds the insertion takes place and the result is committed (R151, R253). -/
theorem State.insertDeliver_of_fits {new result : Str} (hs : new.length ≤ s.strCap)
    (ho : s.outLen.toNat + result.length ≤ s.outCap) :
    s.insertDeliver new result = ((s.symWrite new).resetIfFull).commit result :=
  (if_neg (Nat.not_lt.2 hs)).trans (if_neg (Nat.not_lt.2 ho))

/-- Settles O15: the entry's first byte ends the new string, and both checks pass. -/
theorem dHitCompletes : Obligations.DHitCompletes := by
  intro s c b rest hd hl hc hr hs ho
  have hlen : (s.last ++ [b]).length ≤ s.strCap := List.length_append.trans_le hs
  have hx : exec (.dHit c) s =
      .next ((((s.takeCode c).symWrite (s.last ++ [b])).resetIfFull).commit (b :: rest)) := by
    refine (execDHit_eq hd hl hc).trans ?_
    rw [hr]
    exact congrArg Host.Outcome.next (State.insertDeliver_of_fits (s := s.takeCode c) hlen ho)
  obtain ⟨h, hins⟩ := decoded_insert (c := c) hd.1 (s.last ++ [b]) (b :: rest)
  exact ⟨_, hx, h.cq, h.lastCode, h.last, h.codeCount, h.outLen, h.appended, hins, h.state, h.errCode, h.beside⟩

/-- Settles O16: LAST's own first byte ends the new string, which is the result too. -/
theorem dKwkwkCompletes : Obligations.DKwkwkCompletes := by
  intro s c b rest hd hl hc hs ho
  have hlen : (s.last ++ [b]).length = s.last.length + 1 := List.length_append
  have htake : s.last.take 1 = [b] := by rw [hl]; rfl
  have hx : exec (.dKwkwk c) s =
      .next ((((s.takeCode c).symWrite (s.last ++ [b])).resetIfFull).commit (s.last ++ [b])) := by
    refine (execDKwkwk_eq hd (by simp [hl]) hc).trans ?_
    rw [htake]
    exact congrArg Host.Outcome.next
      (State.insertDeliver_of_fits (s := s.takeCode c) (hlen.trans_le hs) (by rw [hlen]; exact ho))
  obtain ⟨h, hins⟩ := decoded_insert (c := c) hd.1 (s.last ++ [b]) (s.last ++ [b])
  exact ⟨_, hx, h.cq, h.lastCode, h.last, h.codeCount, hlen ▸ h.outLen, h.appended, hins, h.state, h.errCode, h.beside⟩

/-- Settles O14: the slot's string is the result, and no table write comes before its commit. -/
theorem dFirstCompletes : Obligations.DFirstCompletes := by
  intro s c result hd ht hl hc hr ho
  have hx : exec (.dFirst c) s = .next ((s.takeCode c).commit result) := by
    refine (execDFirst_eq hd ht hl hc).trans ?_
    rw [hr]
    exact congrArg Host.Outcome.next (State.deliver_of_fits (s := s.takeCode c) ho)
  have h : Decoded s ((s.takeCode c).commit result) c result := decoded_commit hd.1 s.symtab s.tsize result
  have htsize : ((s.takeCode c).commit result).tsize = s.tsize := by rw [State.commit_eq]; rfl
  exact ⟨_, hx, h.cq, h.lastCode, h.last, h.codeCount, h.outLen, h.appended, htsize, State.commit_symtab _ _,
    h.state, h.errCode, h.beside⟩

/-- Settles O17: both classes take the codeword and raise CORRUPT (R254). -/
theorem corruptCodewordsComplete : Obligations.CorruptCodewordsComplete :=
  ⟨fun _ _ hd ht hl hc => execDCorruptFirst_eq hd ht hl hc, fun _ _ hd hl hc => execDCorrupt_eq hd hl hc⟩

/-- TABLE_RESET where it is enabled (R156). -/
theorem execTableReset_eq (hr : s.state = .run) (ht : s.tsize.toNat = Config.capacity) :
    execTableReset s = .next s.symInit := if_pos ⟨hr, ht⟩

/-- Settles O21: the table that SymInit writes reads as R63 says. -/
theorem tableResetCompletes : Obligations.TableResetCompletes :=
  fun _ hr ht => ⟨initTable, execTableReset_eq hr ht, read_initTable⟩

/-- What an input selects has that input for its encoding, so an operation without one is never selected (R100). -/
theorem decode_ne_of_encode_none {i : Instr} (hi : encode i = none) (ctx : DecodeCtx) (w : InWord) :
    decode ctx w ≠ .ok i := by
  intro h
  obtain ⟨he, -⟩ := encodeOfDecode ctx w i h
  cases hi.symm.trans he

/-- Settles O4: neither internal operation has an encoding (R156, R192). -/
theorem internalOperationsNotSelectable : Obligations.InternalOperationsNotSelectable :=
  fun ctx w => ⟨decode_ne_of_encode_none rfl ctx w, fun _ => decode_ne_of_encode_none rfl ctx w⟩

/-- Settles O33: the engine's turn with a codeword at the head of CQ is a decode step, by what the decoder answers. -/
theorem stepRunsTheCodeword : Obligations.StepRunsTheCodeword := by
  rintro s es c turn ⟨hr, hhead⟩
  obtain ⟨cs, hc⟩ := List.head?_eq_some_iff.1 hhead
  rw [step_engineTurn turn, engineStep_decode (s := { s with events := es }) hr hc]
  constructor
  · intro i (hi : decodeCode s.tsize s.last.isEmpty c = .ok i)
    simp only [hi]
  · intro hl ht
    have hrej : decodeCode s.tsize s.last.isEmpty c = .error .emptyLast := by simp [decodeCode, hl, ht]
    simp only [hrej]

/-- Settles O49: either codeword lies above TSIZE, and above the initial table where LAST is empty (R155). -/
theorem unreachableCodesAreCorrupt : Obligations.UnreachableCodesAreCorrupt := by
  intro s c ⟨_, ⟨_, _, hhi, _⟩, ⟨hfirst, _⟩, _⟩ _ hc
  have habove : s.tsize.toNat < c.toNat := by omega
  by_cases hl : s.last = []
  · have ht : s.tsize.toNat = 256 := congrArg BitVec.toNat (hfirst hl)
    refine .inl ((decodeCode_eq_ok_iff s.ctx c _).2 ⟨rfl, ?_⟩)
    simp only [selects, State.ctx, hl, ht, List.isEmpty_nil, Bool.true_and, decide_true, decide_eq_true_eq]
    omega
  · refine .inr ((decodeCode_eq_ok_iff s.ctx c _).2 ⟨rfl, ?_⟩)
    simp [selects, State.ctx, hl, habove]

end Sys2Proof.Machine
end

section
/-! The growth of the table, and the string lengths of a run's first table (spec/41_dictionary.md R159, R161). -/

namespace Sys2Proof.Machine

/-- What an engine turn can do to the table, to LAST and to CODE_COUNT (R151, R159). -/
inductive TableCase (s t : State) : Prop where
  /-- No codeword is decoded. -/
  | kept (htab : t.symtab = s.symtab) (hts : t.tsize = s.tsize) (hlast : t.last = s.last)
      (hcc : t.codeCount = s.codeCount)
  /-- The first codeword of a run is decoded (R152). -/
  | first (k : Nat) (hl : s.last = []) (htab : t.symtab = s.symtab) (hts : t.tsize = s.tsize)
      (hr : s.symRead k = some t.last)
  /-- A later codeword is decoded, and a string one byte longer than LAST is inserted (R153, R154). -/
  | insert (new : Str) (hl : s.last ≠ []) (hcc : t.codeCount = s.codeCount + 1#32)
      (hn : new.length = s.last.length + 1) (hins : InsertedAt s t new)
      (hr : (∃ k, s.symRead k = some t.last) ∨ t.last = new)

variable {s t : State}

/-- Whatever an engine turn answers is one of the cases of `TableCase`. -/
theorem EngineStep.tableCase (h : EngineStep s (.next t)) : TableCase s t := by
  cases h with
  | first c _ result _ _ hl _ hr =>
    rw [State.commit_eq]
    exact .first c.toNat hl rfl rfl hr
  | insert c _ new result hrun _ hl hr hn =>
    obtain ⟨hd, hins⟩ := decoded_insert (c := c) hrun new result
    refine .insert new hl hd.codeCount hn hins (hr.imp ?_ ?_)
    · exact fun ⟨hread, _⟩ => ⟨_, hd.last ▸ hread⟩
    · exact fun ⟨_, hres, _⟩ => hd.last.trans hres
  | _ => exact .kept rfl rfl rfl rfl

/-- TSIZE between steps (R38 item 1). -/
theorem State.TableOk.tsize_le (h : s.TableOk) : s.tsize.toNat ≤ 4095 := by
  obtain ⟨-, -, hhi, -⟩ := h
  exact hhi

/-- In the engine's turn a step is the engine's. -/
theorem engineStep_of_turn {es : List Event} (turn : s.EngineTurn es) (h : step s = .next t) :
    EngineStep { s with events := es } (.next t) := by
  rw [← h, step_engineTurn turn]
  exact engineStep_cases _

/-- TSIZE after an insertion, as a number (R62, R156). -/
theorem InsertedAt.tsize_toNat {new : Str} (h : InsertedAt s t new) (hhi : s.tsize.toNat ≤ 4095) :
    t.tsize.toNat = if s.tsize.toNat = 4095 then 256 else s.tsize.toNat + 1 := by
  obtain ⟨grows, resets⟩ := h
  split
  case isTrue hfull => rw [(resets (BitVec.eq_of_toNat_eq hfull)).1]; rfl
  case isFalse hfull =>
    rw [(grows fun he => hfull (congrArg BitVec.toNat he)).1, BitVec.toNat_add, BitVec.toNat_ofNat]
    omega

/-- Settles O47, by the three things an engine turn can do to the table. -/
theorem tableGrowth : Obligations.TableGrowth := by
  intro s t es ⟨_, ht, _⟩ turn h
  cases (engineStep_of_turn turn h).tableCase with
  | kept htab hts _ hcc => exact .inr ⟨hts, htab, .inr hcc⟩
  | first k hl htab hts _ => exact .inr ⟨hts, htab, .inl hl⟩
  | insert new hl hcc _ hins _ => exact .inl ⟨hl, hcc, hins.tsize_toNat ht.tsize_le⟩

/-- The initial table with an empty LAST has no string of two bytes (R63). -/
theorem firstTable_of_init (htab : s.symtab = initTable) (hts : s.tsize = 256#13) (hl : s.last = []) :
    s.FirstTable := by
  refine ⟨fun k str hk hs => ?_, by rw [hl, hts]; decide⟩
  rw [htab, read_initTable, if_neg (Nat.not_lt.2 hk)] at hs
  cases hs

/-- START empties LAST (R213). -/
theorem State.start_last (h : s.state ≠ .run) : s.start.last = [] := by
  rw [State.start_of_not_run h]

/-- START begins a first table (R213). -/
theorem firstTable_start (h : s.state ≠ .run) : s.start.FirstTable := by
  rw [State.start_of_not_run h]
  exact firstTable_of_init rfl rfl rfl

/-- A string of a first table is as short as LAST has to be (R161). -/
theorem State.FirstTable.read_length (hf : s.FirstTable) (ht : s.TableOk) {k : Nat} {str : Str}
    (hs : Memory.read s.symtab k = some str) : str.length + 255 ≤ s.tsize.toNat := by
  obtain ⟨-, hlo, -, singles, -, absent⟩ := ht
  by_cases hk : k < 256
  · obtain rfl := Option.some.inj ((singles k hk).symm.trans hs)
    rw [List.length_singleton]
    omega
  · have hshort := hf.1 k str (Nat.not_lt.1 hk) hs
    have hpresent : k < s.tsize.toNat := by
      by_contra hge
      cases (absent k (Nat.not_lt.1 hge)).symm.trans hs
    omega

/-- LAST after an engine turn is an old string of the table or LAST, or one byte longer than LAST (R161). -/
theorem TableCase.last_length (h : TableCase s t) (hf : s.FirstTable) (ht : s.TableOk) :
    t.last.length + 254 ≤ s.tsize.toNat := by
  have hlast := hf.2
  have hread {k : Nat} (hr : s.symRead k = some t.last) : t.last.length + 255 ≤ s.tsize.toNat :=
    hf.read_length ht (State.symRead_eq_some.1 hr).2.1
  cases h with
  | kept _ _ hkept _ => rw [hkept]; omega
  | first k _ _ _ hr => exact Nat.le_of_succ_le (hread hr)
  | insert new _ _ hn _ hr =>
    rcases hr with ⟨k, hr⟩ | hnew
    · exact Nat.le_of_succ_le (hread hr)
    · rw [hnew, hn]; omega

/-- An insertion below capacity keeps the bounds: the new string goes to the slot one above its bound (R161). -/
theorem InsertedAt.keeps_firstTable {new : Str} (h : InsertedAt s t new) (hf : s.FirstTable)
    (hhi : s.tsize.toNat ≤ 4095) (hfull : s.tsize ≠ 4095#13) (hn : new.length = s.last.length + 1)
    (hlast : t.last.length + 254 ≤ s.tsize.toNat) : t.FirstTable := by
  obtain ⟨short, hold⟩ := hf
  obtain ⟨-, hread⟩ := h.1 hfull
  have hne : s.tsize.toNat ≠ 4095 := fun he => hfull (BitVec.eq_of_toNat_eq he)
  have hts := h.tsize_toNat hhi
  rw [if_neg hne] at hts
  refine ⟨fun k str hk hs => ?_, by omega⟩
  rw [hread] at hs
  split at hs
  case isTrue hkt => cases hs; omega
  case isFalse => exact short k str hk hs

/-- An engine turn that does not reset the table keeps the bounds (R161). -/
theorem TableCase.keeps_firstTable (h : TableCase s t) (hf : s.FirstTable) (ht : s.TableOk)
    (hn : ¬ (s.tsize = 4095#13 ∧ t.tsize = 256#13)) : t.FirstTable := by
  have hlast := h.last_length hf ht
  cases h with
  | kept htab hts hkept _ => exact ⟨by rw [htab]; exact hf.1, by rw [hkept, hts]; exact hf.2⟩
  | first k _ htab hts hr =>
    have hread := hf.read_length ht (State.symRead_eq_some.1 hr).2.1
    exact ⟨by rw [htab]; exact hf.1, by rw [hts]; exact hread⟩
  | insert new _ _ hlen hins _ =>
    have hfull : s.tsize ≠ 4095#13 := fun hfull => hn ⟨hfull, (hins.2 hfull).1⟩
    exact hins.keeps_firstTable hf ht.tsize_le hfull hlen hlast

/-- LAST is at most 3841 bytes long where the bounds hold (R161). -/
theorem State.FirstTable.last_le (hf : s.FirstTable) (hhi : s.tsize.toNat ≤ 4095) : s.last.length ≤ 3841 := by
  have := hf.2
  omega

/-- What a step of any agent does to the bounds (R161). -/
theorem step_firstTable (hi : s.Inv) (hf : s.FirstTable) (h : step s = .next t) :
    t.last.length ≤ 3841 ∧ (¬ ResetsTable s t → t.FirstTable) := by
  obtain ⟨-, ht, -⟩ := hi
  have hhi := ht.tsize_le
  cases step_cases h with
  | engine es turn he =>
    have hlast : t.last.length + 254 ≤ s.tsize.toNat :=
      he.tableCase.last_length (s := { s with events := es }) hf ht
    refine ⟨by omega, fun hn => ?_⟩
    exact he.tableCase.keeps_firstTable (s := { s with events := es }) hf ht fun hreset => hn ⟨⟨es, turn⟩, hreset⟩
  | start v es hn hv hr =>
    have hstart := firstTable_start (s := { s with events := es, irqEn := v.getLsbD 1 }) hr
    have hlast := State.start_last (s := { s with events := es, irqEn := v.getLsbD 1 }) hr
    exact ⟨by rw [hlast]; exact Nat.zero_le _, fun _ => hstart⟩
  | reset es he => exact ⟨Nat.zero_le _, fun _ => firstTable_of_init rfl rfl rfl⟩
  | _ => exact ⟨hf.last_le hhi, fun _ => hf⟩

/-- Settles O48: at START, in every step, and for each string that is present. -/
theorem firstTableStringsAreShort : Obligations.FirstTableStringsAreShort := by
  refine ⟨fun _ => firstTable_start, fun _ _ => step_firstTable, ?_⟩
  intro s ⟨_, ht, _⟩ hf k str hs
  have hshort := hf.read_length ht hs
  have hhi := ht.tsize_le
  omega

end Sys2Proof.Machine
end

section
/-! Noninterference (spec/42_driver.md R198): IRQ_EN, OUT_ADDR, the word the host holds and the bytes of OUTBUF at
OUT_LEN and above reach nothing that a run sees, so every operation, and with it every step, answers alike in two
states that a run cannot tell apart. -/

namespace Sys2Proof.Machine

/-- `s`, but for the fields that hold what a run does not see: those are as in `u`. -/
def State.withUnseenOf (s u : State) : State :=
  { s with irqEn := u.irqEn, outAddr := u.outAddr, outbuf := u.outbuf, hostRdata := u.hostRdata }

/-- Two answers that a run cannot tell apart: the same stop, or next states that it cannot tell apart. -/
inductive SameAnswer : Result → Result → Prop where
  | next {s t : State} (h : SameRun s t) : SameAnswer (.next s) (.next t)
  | fault (f : Fault) : SameAnswer (.fault f) (.fault f)
  | refused (r : Refusal) : SameAnswer (.refused r) (.refused r)

variable {s t : State}

/-- What the second answer is, when the first is a next state. -/
theorem SameAnswer.exists_next {r : Result} (h : SameAnswer (.next s) r) : ∃ t, r = .next t ∧ SameRun s t := by
  cases h with
  | next h => exact ⟨_, rfl, h⟩

/-- The relation of R198 as one equation of states, and the bytes of the output. -/
theorem sameRun_iff :
    SameRun s t ↔ t = s.withUnseenOf t ∧ ∀ i, i < s.outLen.toNat → t.memRead i = s.memRead i := by
  cases t
  simp only [SameRun, State.withUnseenOf, State.mk.injEq, true_and, and_assoc]

/-- States that differ at most in what a run does not see. Where both are the same update of two such states, the
equation holds by computation. -/
theorem SameRun.intro (heq : t = s.withUnseenOf t)
    (hmem : ∀ i, i < s.outLen.toNat → t.memRead i = s.memRead i) : SameRun s t :=
  sameRun_iff.2 ⟨heq, hmem⟩

/-- A state that a run cannot tell from `s` is `s` with other values of what the run does not see. -/
theorem SameRun.exists_unseen (h : SameRun s t) :
    ∃ u, t = s.withUnseenOf u ∧ ∀ i, i < s.outLen.toNat → (s.withUnseenOf u).memRead i = s.memRead i := by
  obtain ⟨heq, hmem⟩ := sameRun_iff.1 h
  exact ⟨t, heq, heq ▸ hmem⟩

/-- Two branchings on equivalent conditions are related where their branches are. -/
theorem ite_rel {α : Type} {R : α → α → Prop} {c c' : Prop} {_ : Decidable c} {_ : Decidable c'}
    {x y x' y' : α} (hc : c ↔ c') (hx : R x x') (hy : R y y') :
    R (if c then x else y) (if c' then x' else y') := by
  by_cases h : c
  · rwa [if_pos h, if_pos (hc.1 h)]
  · rwa [if_neg h, if_neg fun h' => h (hc.2 h')]

/-! The shared operations. -/

/-- START gives every run-scoped element the same first value, whatever it held (R213). -/
theorem sameRun_start_of_not_run (hs : s.state ≠ .run) (ht : t.state ≠ .run) (hsrc : t.source = s.source)
    (hev : t.events = s.events) (hout : t.outCap = s.outCap) (hstr : t.strCap = s.strCap) :
    SameRun s.start t.start := by
  rw [State.start_of_not_run hs, State.start_of_not_run ht]
  refine .intro ?_ fun i hi => absurd hi (Nat.not_lt_zero i)
  simp only [State.withUnseenOf, hsrc, hev, hout, hstr]

/-- START keeps the relation: it is ignored in both states, or it begins a run in both (R213). -/
theorem SameRun.start (h : SameRun s t) : SameRun s.start t.start := by
  obtain ⟨u, rfl, -⟩ := h.exists_unseen
  by_cases hr : s.state = .run
  · rwa [State.start_of_run hr, State.start_of_run (s := s.withUnseenOf u) hr]
  · exact sameRun_start_of_not_run hr hr rfl rfl rfl rfl

/-- The table reset at capacity keeps the relation (R156). -/
theorem SameRun.resetIfFull (h : SameRun s t) : SameRun s.resetIfFull t.resetIfFull := by
  obtain ⟨u, rfl, hmem⟩ := h.exists_unseen
  exact ite_rel Iff.rfl (.intro rfl hmem) h

/-- An append leaves a byte below OUT_LEN as it was, unless OUT_LEN wraps to below it (R65). -/
theorem State.memRead_append_of_lt {result : Str} {i : Nat} (hi : i < s.outLen.toNat)
    (hi' : i < (s.append result).outLen.toNat) : (s.append result).memRead i = s.memRead i := by
  refine State.memRead_eq_of_read hi hi' ?_
  rw [State.append_outbuf, Memory.read_writeStr, if_neg fun h => absurd hi (Nat.not_lt.2 h.1)]

/-- OUT_LEN after an append, wrapped or not, is no further than the end of the result (R65). -/
theorem State.append_outLen_le (result : Str) :
    (s.append result).outLen.toNat ≤ s.outLen.toNat + result.length := by
  rw [State.append_outLen, BitVec.toNat_add, BitVec.toNat_ofNat]
  exact (Nat.mod_le _ _).trans (Nat.add_le_add_left (Nat.mod_le _ _) _)

/-- An append keeps the relation: the same bytes go to the same indices, and the bytes below were alike (R65). -/
theorem SameRun.append (h : SameRun s t) (result : Str) : SameRun (s.append result) (t.append result) := by
  obtain ⟨u, rfl, hmem⟩ := h.exists_unseen
  refine .intro rfl fun i hi => ?_
  by_cases hlt : i < s.outLen.toNat
  · rw [State.memRead_append_of_lt hlt hi, ← hmem i hlt]
    exact State.memRead_append_of_lt (s := s.withUnseenOf u) hlt hi
  · have hin : s.outLen.toNat ≤ i ∧ i < s.outLen.toNat + result.length :=
      ⟨Nat.not_lt.1 hlt, hi.trans_le (State.append_outLen_le result)⟩
    have hread {v : State} (hv : v.outLen = s.outLen) :
        Memory.read (α := Byte) (v.append result).outbuf i = result[i - s.outLen.toNat]? := by
      rw [State.append_outbuf, Memory.read_writeStr, hv, if_pos hin]
    exact State.memRead_eq_of_read hi hi ((hread (v := s.withUnseenOf u) rfl).trans (hread rfl).symm)

/-- A commit keeps the relation: the end of the run depends on CQ and EOF_SEEN alone (R151, R193). -/
theorem SameRun.commit (h : SameRun s t) (result : Str) : SameRun (s.commit result) (t.commit result) := by
  obtain ⟨u, happ, hmem⟩ := (h.append result).exists_unseen
  unfold State.commit
  rw [happ]
  exact ite_rel Iff.rfl (.intro rfl hmem) (.intro rfl hmem)

/-- A result is committed in both states, or raises OUT_OVF in both (R252). -/
theorem SameRun.deliver (h : SameRun s t) (result : Str) : SameRun (s.deliver result) (t.deliver result) := by
  obtain ⟨u, rfl, hmem⟩ := h.exists_unseen
  exact ite_rel Iff.rfl (.intro rfl hmem) (h.commit result)

/-- Both states insert and commit, or both raise the same error (R253). -/
theorem SameRun.insertDeliver (h : SameRun s t) (new result : Str) :
    SameRun (s.insertDeliver new result) (t.insertDeliver new result) := by
  obtain ⟨u, rfl, hmem⟩ := h.exists_unseen
  have hwrite : SameRun (s.symWrite new) ((s.withUnseenOf u).symWrite new) := .intro rfl hmem
  exact ite_rel Iff.rfl (.intro rfl hmem)
    (ite_rel Iff.rfl (.intro rfl hmem) (hwrite.resetIfFull.commit result))

/-! The operations and the step. -/

/-- Every operation answers alike: no condition reads an unseen field, and the value of one reaches none but unseen
fields (R198). -/
theorem SameRun.sameAnswer_exec (h : SameRun s t) (i : Instr) : SameAnswer (exec i s) (exec i t) := by
  have hall := h
  obtain ⟨u, rfl, hmem⟩ := h.exists_unseen
  have take (c : Codeword) : SameRun (s.takeCode c) ((s.withUnseenOf u).takeCode c) := .intro rfl hmem
  cases i with
  | uHold1 | uHold2 | uFull | uEnd0 | uEnd1 | uEnd2 | dCorruptFirst | dCorrupt | tableReset =>
    exact ite_rel Iff.rfl (.next (.intro rfl hmem)) (.refused _)
  | dFirst c =>
    refine ite_rel Iff.rfl ?_ (.refused _)
    rw [State.symRead_congr (s := s) (t := s.withUnseenOf u) rfl rfl]
    cases s.symRead c.toNat with
    | none => exact .fault _
    | some result => exact .next ((take c).deliver result)
  | dHit c =>
    refine ite_rel Iff.rfl ?_ (.refused _)
    rw [State.symRead_congr (s := s) (t := s.withUnseenOf u) rfl rfl]
    cases s.symRead c.toNat with
    | none => exact .fault _
    | some entry => exact .next ((take c).insertDeliver _ entry)
  | dKwkwk c => exact ite_rel Iff.rfl (.next ((take c).insertDeliver _ _)) (.refused _)
  | dAppend result =>
    exact ite_rel Iff.rfl (ite_rel Iff.rfl (.next (.intro rfl hmem)) (.next (hall.append result))) (.refused _)
  | wrCtrl v =>
    have hset : SameRun { s with irqEn := v.getLsbD 1 } { s.withUnseenOf u with irqEn := v.getLsbD 1 } :=
      .intro rfl hmem
    exact ite_rel Iff.rfl (.next hset.start) (.next hset)
  | wrStatus | wrOutLen | wrOutData | wrTableSize | wrCodeCount | wrLastCode | wrByteCount | wrRsvd =>
    exact .next hall
  | _ => exact .next (.intro rfl hmem)

/-- The engine's turn answers alike: it waits, unpacks or decodes in both states, on the same input (R191). -/
theorem SameRun.sameAnswer_engineStep (h : SameRun s t) : SameAnswer (engineStep s) (engineStep t) := by
  have hall := h
  obtain ⟨u, rfl, hmem⟩ := h.exists_unseen
  by_cases hw : s.state ≠ .run ∨ (s.cq = [] ∧ (s.eofSeen = true ∨ s.source = []))
  · rw [engineStep_wait hw, engineStep_wait (s := s.withUnseenOf u) hw]
    exact .next hall
  obtain ⟨hrun, hw⟩ := not_or.1 hw
  replace hrun := not_not.1 hrun
  cases hcq : s.cq with
  | cons c cs =>
    have hd : decodeCode (s.withUnseenOf u).tsize (s.withUnseenOf u).last.isEmpty c =
        decodeCode s.tsize s.last.isEmpty c := rfl
    rw [engineStep_decode hrun hcq, engineStep_decode (s := s.withUnseenOf u) hrun hcq, hd]
    cases decodeCode s.tsize s.last.isEmpty c with
    | ok i => exact hall.sameAnswer_exec i
    | error r => exact .fault _
  | nil =>
    obtain ⟨heof, hsrc⟩ := not_or.1 (not_and.1 hw hcq)
    obtain ⟨tok, ts, hsrc⟩ := List.exists_cons_of_ne_nil hsrc
    have hin : s.inReady := ⟨hrun, hcq, Bool.eq_false_iff.2 heof⟩
    rw [engineStep_unpack hin hsrc rfl, engineStep_unpack (s := s.withUnseenOf u) hin hsrc rfl]
    have htaken : SameRun { s with source := ts } { s.withUnseenOf u with source := ts } := .intro rfl hmem
    exact htaken.sameAnswer_exec _

/-- Every step answers alike, whichever agent takes it (R198). -/
theorem SameRun.sameAnswer_step (h : SameRun s t) : SameAnswer (step s) (step t) := by
  have hall := h
  obtain ⟨u, rfl, hmem⟩ := h.exists_unseen
  have later (es : List Event) : SameRun { s with events := es } { s.withUnseenOf u with events := es } :=
    .intro rfl hmem
  have hev : (s.withUnseenOf u).events = s.events := rfl
  rw [step_eq, step_eq, hev]
  cases s.events with
  | nil => exact hall.sameAnswer_engineStep
  | cons e es =>
    cases e with
    | engine => exact (later es).sameAnswer_engineStep
    | offer tok => exact .next (.intro rfl hmem)
    | withdraw => exact .next (.intro rfl hmem)
    | host c => exact (later es).sameAnswer_exec _
    | hwReset => exact .next (.intro rfl fun _ _ => rfl)

end Sys2Proof.Machine
end

section
/-! No step stops where the invariants hold (spec/60_exceptions.md R268), and with it the independence of runs. -/

namespace Sys2Proof.Machine

variable {s : State}

/-- A slot below TSIZE is present (R38 item 2). -/
theorem State.TableOk.symRead_ne_none (h : s.TableOk) {k : Nat} (hk : k < s.tsize.toNat) : s.symRead k ≠ none := by
  obtain ⟨-, -, -, -, present, -⟩ := h
  obtain ⟨str, hread, hlen, -⟩ := present k hk
  have hsome : s.symRead k = some str := State.symRead_eq_some.2 ⟨hk, hread, List.ne_nil_of_length_pos hlen⟩
  rw [hsome]
  exact Option.some_ne_none str

/-- An engine turn reaches neither of the two model faults (R268, R61, R157). -/
theorem EngineStep.exists_next {r : Result} (h : EngineStep s r) (hi : s.Inv) : ∃ s', r = .next s' := by
  obtain ⟨-, ht, ⟨hfirst, -⟩, -⟩ := hi
  cases h with
  | absent c cs _ _ hk hr => exact absurd hr (ht.symRead_ne_none hk)
  | emptyLast _ hl hts => exact absurd (congrArg BitVec.toNat (hfirst hl)) hts
  | _ => exact ⟨_, rfl⟩

/-- A host access always completes (R210). -/
theorem exists_next_of_host (h : HostCmd) (s : State) : ∃ s', exec (decodeHost h) s = .next s' := by
  rcases exec_host_cases h s with ⟨-, v, e⟩ | ⟨-, e⟩ | ⟨-, -, e⟩ | ⟨-, -, e⟩ <;> exact ⟨_, e⟩

/-- From a state that meets the invariants every agent's step answers a next state (R268). -/
theorem State.Inv.exists_step (hi : s.Inv) : ∃ s', step s = .next s' := by
  rw [step_eq]
  cases s.events with
  | nil => exact (engineStep_cases s).exists_next hi
  | cons e es =>
    cases e with
    | engine => exact (engineStep_cases { s with events := es }).exists_next hi
    | host c => exact exists_next_of_host c _
    | _ => exact ⟨_, rfl⟩

/-- Settles O51: START makes the two states alike, and every step of states that are alike answers alike. -/
theorem runsAreIndependentOfHistory : Obligations.RunsAreIndependentOfHistory := by
  refine ⟨fun s t => sameRun_start_of_not_run, fun s t hi hsame => ?_⟩
  obtain ⟨s', hs⟩ := hi.exists_step
  have hans := hsame.sameAnswer_step
  rw [hs] at hans
  obtain ⟨t', ht, hnext⟩ := hans.exists_next
  exact ⟨s', t', hs, ht, hnext⟩

end Sys2Proof.Machine
end

section
/-! D_APPEND as an operation of its own, and the turns in which the engine waits (spec/42_driver.md R191, R192). -/

namespace Sys2Proof.Machine

variable {s : State} {result : Str}

/-- D_APPEND of a result that fits (R192). -/
theorem execDAppend_of_fits (hr : s.state = .run) (ho : s.outLen.toNat + result.length ≤ s.outCap) :
    execDAppend result s = .next (s.append result) :=
  (if_pos hr).trans (if_neg (Nat.not_lt.2 ho))

/-- D_APPEND of a result that does not fit (R192, R252). -/
theorem execDAppend_of_tooLong (hr : s.state = .run) (ho : s.outCap < s.outLen.toNat + result.length) :
    execDAppend result s = .next (s.raise .outOvf) :=
  (if_pos hr).trans (if_pos ho)

/-- Settles O22, by the OUT_OVF check: an append at OUT_LEN, or the error. -/
theorem dAppendCompletes : Obligations.DAppendCompletes :=
  ⟨fun _ _ hr ho => ⟨_, execDAppend_of_fits hr ho, appendedAt_writeStr _ _ _⟩,
    fun _ _ hr ho => execDAppend_of_tooLong hr ho⟩

/-- Settles O35: in each of the three conditions neither a decode step nor an unpack step is enabled. -/
theorem engineOtherwiseWaits : Obligations.EngineOtherwiseWaits := by
  intro s es turn h
  rw [step_engineTurn turn]
  apply engineStep_wait (s := { s with events := es })
  rcases h with hr | ⟨hcq, hsrc⟩ | ⟨hcq, heof⟩
  · exact .inl hr
  · exact .inr ⟨hcq, .inr hsrc⟩
  · exact .inr ⟨hcq, .inl heof⟩

end Sys2Proof.Machine
end

section
/-! The host register commands, one access each (spec/43_host_interface.md R210 to R225). -/

namespace Sys2Proof.Machine

variable {s : State}

/-- Settles O23: each read is the host's receipt of its register's word, and OUT_DATA is not among them. -/
theorem hostReadsComplete : Obligations.HostReadsComplete := by
  intro s v
  exact ⟨rfl, rfl, rfl, rfl, rfl, rfl, rfl, rfl, fun _ => rfl⟩

/-- OUT_DATA at or above OUT_LEN (R48, R66). -/
theorem State.outDataReg_of_ge (h : s.outLen.toNat ≤ s.outAddr.toNat) : s.outDataReg = 0#32 := by
  rw [State.outDataReg, State.memRead_of_ge h]
  rfl

/-- OUT_DATA below OUT_LEN, at a byte that is present (R48, R66). -/
theorem State.outDataReg_of_read {b : Byte} (h : s.outAddr.toNat < s.outLen.toNat)
    (hb : Memory.read (α := Byte) s.outbuf s.outAddr.toNat = some b) : s.outDataReg = b.setWidth 32 := by
  rw [State.outDataReg, State.memRead_of_read h hb]

/-- RD OUT_DATA gives the host the word of OUT_DATA, and does not advance OUT_ADDR (R218). -/
theorem execRdOutData_eq {w : Word} (v : Word) (h : s.outDataReg = w) :
    execRdOutData v s = .next { s with hostRdata := w } :=
  congrArg (fun x => Host.Outcome.next (s.hostReceives x)) h

/-- Settles O24, by the two values of OUT_DATA: 0 at or above OUT_LEN, the output byte below. -/
theorem rdOutDataCompletes : Obligations.RdOutDataCompletes :=
  ⟨fun _ v hge => execRdOutData_eq v (State.outDataReg_of_ge hge),
    fun _ v _ hlt hb => execRdOutData_eq v (State.outDataReg_of_read hlt hb)⟩

/-- Settles O26: the meaning of each of these writes is the state it is given. -/
theorem ignoredWritesComplete : Obligations.IgnoredWritesComplete := by
  intro s v
  exact ⟨rfl, rfl, rfl, rfl, rfl, rfl, rfl, fun _ => rfl⟩

/-- Settles O27: the one register written is the record update itself. -/
theorem wrOutAddrCompletes : Obligations.WrOutAddrCompletes := fun _ _ => rfl

/-- WR CTRL with bit 0 clear, or during a run, where START is ignored, writes IRQ_EN alone (R212, R213). -/
theorem execWrCtrl_of_no_start {v : Word} (h : v.getLsbD 0 = false ∨ s.state = .run) :
    execWrCtrl v s = .next { s with irqEn := v.getLsbD 1 } := by
  rw [execWrCtrl_eq]
  rcases h with hv | hr
  · rw [if_neg (Bool.eq_false_iff.1 hv)]
  · rw [State.start_of_run (s := { s with irqEn := v.getLsbD 1 }) hr, ite_self]

/-- WR CTRL with bit 0 set is START, after the write of IRQ_EN (R212, R213). -/
theorem execWrCtrl_of_start {v : Word} (h : v.getLsbD 0 = true) :
    execWrCtrl v s = .next (State.start { s with irqEn := v.getLsbD 1 }) := by
  rw [execWrCtrl_eq, if_pos h]

/-- Settles O28: the fields are those START writes with no run in progress, and the table is the initial one. -/
theorem wrCtrlCompletes : Obligations.WrCtrlCompletes := by
  refine ⟨fun s v h => execWrCtrl_of_no_start h, fun s v hv hr => ⟨initTable, ?_, read_initTable⟩⟩
  have hstart := State.start_of_not_run (s := { s with irqEn := v.getLsbD 1 }) hr
  exact (execWrCtrl_of_start hv).trans (congrArg Host.Outcome.next hstart)

end Sys2Proof.Machine
end

section
/-! The errors of a decode step: their order, and that they change nothing but STATE, ERRCODE, LAST_CODE and CQ (spec/60_exceptions.md R250 to R268). -/

namespace Sys2Proof.Machine

variable {s t : State} {c : Codeword} {new result entry : Str}

/-- Settles O39: the invariants shut out an absent slot below TSIZE, and an empty LAST with TSIZE != 256. -/
theorem invStepNeverStops : Obligations.InvStepNeverStops := fun _ hi => hi.exists_step

/-- D_FIRST where its slot is present (R152). -/
theorem execDFirst_of_read (hd : s.decodeReady c) (ht : s.tsize.toNat = 256) (hl : s.last = [])
    (hc : c.toNat < 256) (hr : s.symRead c.toNat = some result) :
    execDFirst c s = .next ((s.takeCode c).deliver result) := by
  rw [execDFirst_eq hd ht hl hc, hr]

/-- D_HIT where its slot is present (R153). -/
theorem execDHit_of_read (hd : s.decodeReady c) (hl : s.last ≠ []) (hc : c.toNat < s.tsize.toNat)
    (hr : s.symRead c.toNat = some entry) :
    execDHit c s = .next ((s.takeCode c).insertDeliver (s.last ++ entry.take 1) entry) := by
  rw [execDHit_eq hd hl hc, hr]

/-- The new string of a D_HIT is one byte longer than LAST, because a present slot is not empty (R36, R153). -/
theorem length_new_of_read {k : Nat} (hr : s.symRead k = some entry) :
    (s.last ++ entry.take 1).length = s.last.length + 1 := by
  obtain ⟨-, -, hne⟩ := State.symRead_eq_some.1 hr
  exact length_new hne

/-- A new string above STR_CAP raises STR_OVF, whatever the result's length (R251, R253). -/
theorem State.insertDeliver_of_strTooLong (hs : s.strCap < new.length) :
    s.insertDeliver new result = s.raise .strOvf := if_pos hs

/-- Behind a new string within STR_CAP, a result that does not fit raises OUT_OVF (R252, R253). -/
theorem State.insertDeliver_of_outTooLong (hs : new.length ≤ s.strCap)
    (ho : s.outCap < s.outLen.toNat + result.length) : s.insertDeliver new result = s.raise .outOvf :=
  (if_neg (Nat.not_lt.2 hs)).trans (if_pos ho)

/-- A first result that does not fit raises OUT_OVF (R252). -/
theorem State.deliver_of_outTooLong (ho : s.outCap < s.outLen.toNat + result.length) :
    s.deliver result = s.raise .outOvf := if_pos ho

/-- Settles O18: the new string of either operation is one byte longer than LAST, and STR_OVF is checked first. -/
theorem stringOverflowIsPrecise : Obligations.StringOverflowIsPrecise := by
  refine ⟨fun s c entry hd hl hc hr hs => ?hit, fun s c hd hl hc hs => ?kwkwk⟩
  case hit =>
    refine (execDHit_of_read hd hl hc hr).trans (congrArg Host.Outcome.next ?_)
    exact State.insertDeliver_of_strTooLong (s := s.takeCode c) (hs.trans_eq (length_new_of_read hr).symm)
  case kwkwk =>
    refine (execDKwkwk_eq hd hl hc).trans (congrArg Host.Outcome.next ?_)
    exact State.insertDeliver_of_strTooLong (s := s.takeCode c) (hs.trans_eq (length_new hl).symm)

/-- Settles O19: D_FIRST makes one check; the new string of the others passes the check of STR_CAP before it. -/
theorem outputOverflowIsPrecise : Obligations.OutputOverflowIsPrecise := by
  refine ⟨fun s c result hd ht hl hc hr ho => ?first, fun s c entry hd hl hc hr hs ho => ?hit,
    fun s c hd hl hc hs ho => ?kwkwk⟩
  case first =>
    refine (execDFirst_of_read hd ht hl hc hr).trans (congrArg Host.Outcome.next ?_)
    exact State.deliver_of_outTooLong (s := s.takeCode c) ho
  case hit =>
    refine (execDHit_of_read hd hl hc hr).trans (congrArg Host.Outcome.next ?_)
    exact State.insertDeliver_of_outTooLong (s := s.takeCode c) ((length_new_of_read hr).trans_le hs) ho
  case kwkwk =>
    have hlen := length_new (last := s.last) hl
    refine (execDKwkwk_eq hd hl hc).trans (congrArg Host.Outcome.next ?_)
    exact State.insertDeliver_of_outTooLong (s := s.takeCode c) (hlen.trans_le hs) (by rw [hlen]; exact ho)

/-- A commit never enters ERROR (R151, R193). -/
theorem State.commit_state_ne_error (hs : s.state ≠ .error) (result : Str) : (s.commit result).state ≠ .error := by
  rcases s.commit_state_cases result with hkept | hdone
  · rwa [hkept]
  · rw [hdone]; decide

/-- Of the engine's cases the error of a decode step alone enters ERROR (R254, R255). -/
theorem EngineStep.of_enters_error (h : EngineStep s (.next t)) (hs : s.state ≠ .error) (ht : t.state = .error) :
    ∃ c cs e, s.cq = c :: cs ∧ e ≠ .noError ∧
      t = { s with state := .error, errCode := e, lastCode := c, cq := cs } := by
  cases h with
  | err c cs e _ hc he => exact ⟨c, cs, e, hc, he, rfl⟩
  | first c _ result => exact absurd ht ((s.takeCode c).commit_state_ne_error hs result)
  | insert _ _ _ result => exact absurd ht (State.commit_state_ne_error (by simpa using hs) result)
  | end0 | end1 => cases ht
  | _ => exact absurd ht hs

/-- Settles O44: the engine's turn enters ERROR by the error of a decode step, whose next state is the one stated. -/
theorem errorsArePrecise : Obligations.ErrorsArePrecise :=
  fun _ _ _ turn h hs ht => (engineStep_of_turn turn h).of_enters_error hs ht

end Sys2Proof.Machine
end

section
/-! The step at a hardware reset (spec/70_reset_and_hazards.md R280). -/

namespace Sys2Proof.Machine

/-- A hardware reset is taken as the next event, whatever STATE is, and no agent's other work precedes it (R280). -/
theorem step_hwReset {s : State} {es : List Event} (h : s.events = .hwReset :: es) :
    step s = .next (State.hardwareReset { s with events := es }) := by
  rw [step_eq, h]

/-- Settles O31: the block's elements take their reset values (R55), and what is not the block's, the later events among
it, is kept. -/
theorem hardwareResetStep : Obligations.HardwareResetStep :=
  fun _ _ h => step_hwReset h

end Sys2Proof.Machine
end

section
/-! Words of the spec's tables and the operations they stand for (spec/95_test_vectors.md 2.1, 2.3, 2.5). -/

namespace Sys2Proof

/-- Settles O5: each word is the encoding of an operation that its row admits and its context selects, and the decoder
inverts the encoder there (R90, R100, R101). -/
theorem specWordsDecode : Obligations.SpecWordsDecode := by
  unfold Obligations.SpecWordsDecode
  and_intros
  all_goals exact decodeOfEncode _ _ _ rfl rfl rfl

end Sys2Proof
end
